-- ==== Sys2Proof/Word.lean ====
section
/-!
DEFINITION. The widths of CORE (R8: every value is an unsigned integer of a stated width): bytes, 16-bit words,
12-bit address immediates, register indices.
-/
namespace Sys2Proof

/-- An 8-bit value: a register, a timer, a byte of memory. -/
abbrev Byte := BitVec 8

/-- A 16-bit value: the program counter, the index register, a return address, an instruction word, a key mask. -/
abbrev Word := BitVec 16

/-- The 12-bit immediate `nnn` (R91). -/
abbrev Addr12 := BitVec 12

/-- The index of one of the sixteen registers `V[0..15]` (R21). -/
abbrev Reg := Fin 16

/-- The flag register `VF` is `V[15]` (R22). -/
abbrev VF : Reg := 15

end Sys2Proof
end

