-- ==== Sys2Proof/Config.lean ====
section
/-!
DEFINITION. The implementation parameters of R6, each at the value the spec gives it, and the one free value of the
machine (the random byte of R152). The quirk record is not here: R20 makes it state.
-/
namespace Sys2Proof

/-- `MEM_SIZE`: 4096 bytes, addresses 0 to 4095 (R6, R31). -/
def Config.memSize : Nat := 4096

/-- `PROG_START`: where the program is loaded and `PC` starts (R6, R42). -/
def Config.progStart : Nat := 0x200

/-- `GLYPH_BASE`: where the glyph table starts (R6, R29). -/
def Config.glyphBase : Nat := 0x50

/-- `GLYPH_BYTES`: bytes in one glyph (R6, R29). -/
def Config.glyphBytes : Nat := 5

/-- `WIDTH`: columns of the display. PRESUMED by the spec itself (R6, decision D5; log 7). -/
abbrev Config.width : Nat := 64

/-- `HEIGHT`: rows of the display. PRESUMED by the spec itself (R6, decision D5; log 7). -/
abbrev Config.height : Nat := 32

/-- The longest program image the loader takes: 4096 - 0x200 bytes (R75, R272). -/
def Config.maxImage : Nat := Config.memSize - Config.progStart

/-- The two readings of the reverse subtraction's destination (R149): register `x`, or literally register `y`. -/
inductive SubnDest where
  | x
  | y
  deriving DecidableEq, Repr

/-- `SUBN_DEST`: the spec takes `x` (R6, R149, decision D12; log 9). -/
def Config.subnDest : SubnDest := .x

/-- The random byte of the `k`-th draw: a FREE VALUE (R40, R152: under no law). It has no body, so nothing can be
proved about a value of it; every statement holds whatever the bytes are. Log 3. -/
opaque Config.randomByte : Nat → Byte

end Sys2Proof
end

