-- ==== Sys2Proof/Syntax.lean ====
section
/-!
DEFINITION. The 34 instructions of R94, one constructor per row of spec/opcode_table.json, in the table's order.
Operands are destination first; `x` and `y` are register indices, `nn`, `nnn` and `n` the immediates of R91.
-/
namespace Sys2Proof

/-- The instruction set (R94, R101: 34 instructions, no more). -/
inductive Instr where
  /-- `00E0 CLS` (R190). -/
  | cls
  /-- `00EE RET` (R120). -/
  | ret
  /-- `1NNN JP nnn` (R121). -/
  | jp (nnn : Addr12)
  /-- `2NNN CALL nnn` (R122). -/
  | call (nnn : Addr12)
  /-- `3XNN SE Vx, nn` (R123). -/
  | seImm (x : Reg) (nn : Byte)
  /-- `4XNN SNE Vx, nn` (R124). -/
  | sneImm (x : Reg) (nn : Byte)
  /-- `5XY0 SE Vx, Vy` (R125). -/
  | seReg (x y : Reg)
  /-- `6XNN LD Vx, nn` (R140). -/
  | ldImm (x : Reg) (nn : Byte)
  /-- `7XNN ADD Vx, nn` (R141). -/
  | addImm (x : Reg) (nn : Byte)
  /-- `8XY0 LD Vx, Vy` (R142). -/
  | ldReg (x y : Reg)
  /-- `8XY1 OR Vx, Vy` (R143). -/
  | orReg (x y : Reg)
  /-- `8XY2 AND Vx, Vy` (R144). -/
  | andReg (x y : Reg)
  /-- `8XY3 XOR Vx, Vy` (R145). -/
  | xorReg (x y : Reg)
  /-- `8XY4 ADD Vx, Vy` (R146). -/
  | addReg (x y : Reg)
  /-- `8XY5 SUB Vx, Vy` (R147). -/
  | subReg (x y : Reg)
  /-- `8XY6 SHR Vx, Vy` (R148). -/
  | shrReg (x y : Reg)
  /-- `8XY7 SUBN Vx, Vy` (R149). -/
  | subnReg (x y : Reg)
  /-- `8XYE SHL Vx, Vy` (R150). -/
  | shlReg (x y : Reg)
  /-- `9XY0 SNE Vx, Vy` (R126; every `9XYn` is this instruction, R96). -/
  | sneReg (x y : Reg)
  /-- `ANNN LD I, nnn` (R170). -/
  | ldI (nnn : Addr12)
  /-- `BNNN JP V0, nnn` (R128). The field `x` overlaps `nnn[11:8]` (the table's note); `WellFormed` ties the two (log 34). -/
  | jpV0 (nnn : Addr12) (x : Reg)
  /-- `CXNN RND Vx, nn` (R152). -/
  | rnd (x : Reg) (nn : Byte)
  /-- `DXYN DRW Vx, Vy, n` (R192). -/
  | drw (x y : Reg) (n : BitVec 4)
  /-- `EX9E SKP Vx` (R211). -/
  | skp (x : Reg)
  /-- `EXA1 SKNP Vx` (R212). -/
  | sknp (x : Reg)
  /-- `FX07 LD Vx, DT` (R213). -/
  | ldVxDt (x : Reg)
  /-- `FX0A LD Vx, K` (R216). -/
  | ldVxK (x : Reg)
  /-- `FX15 LD DT, Vx` (R214). -/
  | ldDtVx (x : Reg)
  /-- `FX18 LD ST, Vx` (R215). -/
  | ldStVx (x : Reg)
  /-- `FX1E ADD I, Vx` (R172). -/
  | addI (x : Reg)
  /-- `FX29 LD F, Vx` (R173). -/
  | ldF (x : Reg)
  /-- `FX33 LD B, Vx` (R174). -/
  | ldB (x : Reg)
  /-- `FX55 LD [I], Vx` (R175). -/
  | storeRegs (x : Reg)
  /-- `FX65 LD Vx, [I]` (R176). -/
  | loadRegs (x : Reg)
  deriving DecidableEq, Repr

end Sys2Proof
end

