-- ==== Sys2Proof/WellFormed.lean ====
section
/-!
DEFINITION. When an instruction term is one that some word encodes. The types of `Instr` already bound every field
to its width (R91, R98: no field has reserved values), so one check remains: the two overlapping fields of `JP V0, nnn`.
-/
namespace Sys2Proof

/-- The high nibble `nnn[11:8]` of a 12-bit immediate, read as a register index (R128: the `x` of `JP V0, nnn`). -/
def highNibble (nnn : Addr12) : Reg := Fin.ofNat 16 (nnn.extractLsb' 8 4).toNat

/-- `i` is a term some word encodes: in `JP V0, nnn` the field `x` is the high nibble of `nnn` (R128); every other
term is well formed (R98). -/
def WellFormed : Instr → Bool
  | .jpV0 nnn x => x == highNibble nnn
  | .cls | .ret | .jp _ | .call _ | .seImm _ _ | .sneImm _ _ | .seReg _ _ | .ldImm _ _ | .addImm _ _ | .ldReg _ _
  | .orReg _ _ | .andReg _ _ | .xorReg _ _ | .addReg _ _ | .subReg _ _ | .shrReg _ _ | .subnReg _ _ | .shlReg _ _
  | .sneReg _ _ | .ldI _ | .rnd _ _ | .drw _ _ _ | .skp _ | .sknp _ | .ldVxDt _ | .ldVxK _ | .ldDtVx _ | .ldStVx _
  | .addI _ | .ldF _ | .ldB _ | .storeRegs _ | .loadRegs _ => true

end Sys2Proof
end

