-- ==== Sys2Proof/Decode.lean ====
section
/-!
DEFINITION. Decoding and encoding (R90 to R103). `decodeWord` dispatches on the nibbles as R94 describes; the mask and
match columns of R94 stand apart in `opcodeTable`, written out from the spec, so that the two can be compared.
Every opcode value is PRESUMED by the spec itself (R94, decisions D1 and D2; log 5).
-/
namespace Sys2Proof

/-! ## Fields (R91) -/

/-- The opcode class `w[15:12]`. -/
def opClass (w : Word) : BitVec 4 := w.extractLsb' 12 4

/-- The register field `x = w[11:8]`. -/
def xField (w : Word) : Reg := Fin.ofNat 16 (w.extractLsb' 8 4).toNat

/-- The register field `y = w[7:4]`. -/
def yField (w : Word) : Reg := Fin.ofNat 16 (w.extractLsb' 4 4).toNat

/-- The bottom nibble `n = w[3:0]`. -/
def nField (w : Word) : BitVec 4 := w.extractLsb' 0 4

/-- The bottom byte `nn = w[7:0]`. -/
def nnField (w : Word) : Byte := w.extractLsb' 0 8

/-- The 12-bit immediate `nnn = w[11:0]`. -/
def nnnField (w : Word) : Addr12 := w.extractLsb' 0 12

/-! ## Decode -/

/-- Why bytes are no instruction. -/
inductive DecodeError where
  /-- The word matches no row of R94 (R95). -/
  | unimplementedOpcode (w : Word)
  /-- Fewer than two bytes: no word to decode (R90: every instruction is exactly 2 bytes). -/
  | truncated
  deriving DecidableEq, Repr

/-- Class 0 matches the whole word (R97). -/
def decodeClass0 (w : Word) : Except DecodeError Instr :=
  if w = 0x00E0#16 then .ok .cls
  else if w = 0x00EE#16 then .ok .ret
  else .error (.unimplementedOpcode w)

/-- Class 5 needs a zero bottom nibble (R96). -/
def decodeClass5 (w : Word) : Except DecodeError Instr :=
  if nField w = 0x0#4 then .ok (.seReg (xField w) (yField w)) else .error (.unimplementedOpcode w)

/-- Class 8: the bottom nibble is the sub-opcode; 8, 9, A, B, C, D and F are none (R94, R151). -/
def decodeClass8 (w : Word) : Except DecodeError Instr :=
  match (nField w).toNat with
  | 0x0 => .ok (.ldReg (xField w) (yField w))
  | 0x1 => .ok (.orReg (xField w) (yField w))
  | 0x2 => .ok (.andReg (xField w) (yField w))
  | 0x3 => .ok (.xorReg (xField w) (yField w))
  | 0x4 => .ok (.addReg (xField w) (yField w))
  | 0x5 => .ok (.subReg (xField w) (yField w))
  | 0x6 => .ok (.shrReg (xField w) (yField w))
  | 0x7 => .ok (.subnReg (xField w) (yField w))
  | 0xE => .ok (.shlReg (xField w) (yField w))
  | _ => .error (.unimplementedOpcode w)

/-- Class E: the bottom byte is the sub-opcode (R94). -/
def decodeClassE (w : Word) : Except DecodeError Instr :=
  match (nnField w).toNat with
  | 0x9E => .ok (.skp (xField w))
  | 0xA1 => .ok (.sknp (xField w))
  | _ => .error (.unimplementedOpcode w)

/-- Class F: the bottom byte is the sub-opcode (R94). -/
def decodeClassF (w : Word) : Except DecodeError Instr :=
  match (nnField w).toNat with
  | 0x07 => .ok (.ldVxDt (xField w))
  | 0x0A => .ok (.ldVxK (xField w))
  | 0x15 => .ok (.ldDtVx (xField w))
  | 0x18 => .ok (.ldStVx (xField w))
  | 0x1E => .ok (.addI (xField w))
  | 0x29 => .ok (.ldF (xField w))
  | 0x33 => .ok (.ldB (xField w))
  | 0x55 => .ok (.storeRegs (xField w))
  | 0x65 => .ok (.loadRegs (xField w))
  | _ => .error (.unimplementedOpcode w)

/-- Decode a word: a pure function of the word (R99), "using the top nibble as the primary opcode class" (R94). -/
def decodeWord (w : Word) : Except DecodeError Instr :=
  match (opClass w).toNat with
  | 0x0 => decodeClass0 w
  | 0x1 => .ok (.jp (nnnField w))
  | 0x2 => .ok (.call (nnnField w))
  | 0x3 => .ok (.seImm (xField w) (nnField w))
  | 0x4 => .ok (.sneImm (xField w) (nnField w))
  | 0x5 => decodeClass5 w
  | 0x6 => .ok (.ldImm (xField w) (nnField w))
  | 0x7 => .ok (.addImm (xField w) (nnField w))
  | 0x8 => decodeClass8 w
  | 0x9 => .ok (.sneReg (xField w) (yField w))
  | 0xA => .ok (.ldI (nnnField w))
  | 0xB => .ok (.jpV0 (nnnField w) (xField w))
  | 0xC => .ok (.rnd (xField w) (nnField w))
  | 0xD => .ok (.drw (xField w) (yField w) (nField w))
  | 0xE => decodeClassE w
  | 0xF => decodeClassF w
  | _ => .error (.unimplementedOpcode w)

/-- Two bytes as one big-endian word: the byte at the lower address is bits 15 to 8 (R64, R65). -/
def wordOfBytes (hi lo : Byte) : Word := hi ++ lo

/-- A word as the two bytes that store it, the high byte at the lower address (R65, R103). -/
def wordBytes (w : Word) : List Byte := [w.extractLsb' 8 8, w.extractLsb' 0 8]

/-- Decode the instruction at the head of a byte list and give the rest: total on any bytes. -/
def decode : List Byte → Except DecodeError (Instr × List Byte)
  | hi :: lo :: rest =>
    match decodeWord (wordOfBytes hi lo) with
    | .ok i => .ok (i, rest)
    | .error e => .error e
  | [_] | [] => .error .truncated

/-! ## Encode (R103) -/

/-- A register index at bits 11 to 8. -/
def xBits (x : Reg) : Word := BitVec.ofNat 16 x.val <<< 8

/-- A register index at bits 7 to 4. -/
def yBits (y : Reg) : Word := BitVec.ofNat 16 y.val <<< 4

/-- Format X: `match | (x << 8)`. -/
def encX (m : Word) (x : Reg) : Word := m ||| xBits x

/-- Formats XY and XYN: `match | (x << 8) | (y << 4) | n` (`n` is 0 in format XY). -/
def encXYN (m : Word) (x y : Reg) (n : BitVec 4) : Word := m ||| xBits x ||| yBits y ||| n.zeroExtend 16

/-- Format XNN: `match | (x << 8) | nn`. -/
def encXNN (m : Word) (x : Reg) (nn : Byte) : Word := m ||| xBits x ||| nn.zeroExtend 16

/-- Format NNN: `match | nnn`. -/
def encNNN (m : Word) (nnn : Addr12) : Word := m ||| nnn.zeroExtend 16

/-- The canonical word of an instruction: the inverse of R94 (R103), `9XY0` for `SNE Vx, Vy` (R96; log 6). -/
def encode : Instr → Word
  | .cls => 0x00E0#16
  | .ret => 0x00EE#16
  | .jp nnn => encNNN 0x1000#16 nnn
  | .call nnn => encNNN 0x2000#16 nnn
  | .seImm x nn => encXNN 0x3000#16 x nn
  | .sneImm x nn => encXNN 0x4000#16 x nn
  | .seReg x y => encXYN 0x5000#16 x y 0#4
  | .ldImm x nn => encXNN 0x6000#16 x nn
  | .addImm x nn => encXNN 0x7000#16 x nn
  | .ldReg x y => encXYN 0x8000#16 x y 0#4
  | .orReg x y => encXYN 0x8001#16 x y 0#4
  | .andReg x y => encXYN 0x8002#16 x y 0#4
  | .xorReg x y => encXYN 0x8003#16 x y 0#4
  | .addReg x y => encXYN 0x8004#16 x y 0#4
  | .subReg x y => encXYN 0x8005#16 x y 0#4
  | .shrReg x y => encXYN 0x8006#16 x y 0#4
  | .subnReg x y => encXYN 0x8007#16 x y 0#4
  | .shlReg x y => encXYN 0x800E#16 x y 0#4
  | .sneReg x y => encXYN 0x9000#16 x y 0#4
  | .ldI nnn => encNNN 0xA000#16 nnn
  | .jpV0 nnn _ => encNNN 0xB000#16 nnn
  | .rnd x nn => encXNN 0xC000#16 x nn
  | .drw x y n => encXYN 0xD000#16 x y n
  | .skp x => encX 0xE09E#16 x
  | .sknp x => encX 0xE0A1#16 x
  | .ldVxDt x => encX 0xF007#16 x
  | .ldVxK x => encX 0xF00A#16 x
  | .ldDtVx x => encX 0xF015#16 x
  | .ldStVx x => encX 0xF018#16 x
  | .addI x => encX 0xF01E#16 x
  | .ldF x => encX 0xF029#16 x
  | .ldB x => encX 0xF033#16 x
  | .storeRegs x => encX 0xF055#16 x
  | .loadRegs x => encX 0xF065#16 x

/-- The two bytes of an instruction in memory (R103). -/
def encodeBytes (i : Instr) : List Byte := wordBytes (encode i)

/-! ## The opcode table of R94, as data -/

/-- One row of R94: a word `w` is the row's instruction exactly when `w & mask = match`. -/
structure OpcodeRow where
  mnemonic : String
  mask : Word
  pattern : Word
  deriving DecidableEq, Repr

/-- `w & mask = match` (R94). -/
def OpcodeRow.covers (r : OpcodeRow) (w : Word) : Bool := w &&& r.mask == r.pattern

/-- Rows 1 to 9 of R94. -/
def opcodeRows0to7 : List OpcodeRow :=
  [⟨"CLS", 0xFFFF, 0x00E0⟩, ⟨"RET", 0xFFFF, 0x00EE⟩, ⟨"JP_nnn", 0xF000, 0x1000⟩, ⟨"CALL_nnn", 0xF000, 0x2000⟩,
   ⟨"SE_Vx__nn", 0xF000, 0x3000⟩, ⟨"SNE_Vx__nn", 0xF000, 0x4000⟩, ⟨"SE_Vx__Vy", 0xF00F, 0x5000⟩,
   ⟨"LD_Vx__nn", 0xF000, 0x6000⟩, ⟨"ADD_Vx__nn", 0xF000, 0x7000⟩]

/-- Rows 10 to 18 of R94. -/
def opcodeRows8 : List OpcodeRow :=
  [⟨"LD_Vx__Vy", 0xF00F, 0x8000⟩, ⟨"OR_Vx__Vy", 0xF00F, 0x8001⟩, ⟨"AND_Vx__Vy", 0xF00F, 0x8002⟩,
   ⟨"XOR_Vx__Vy", 0xF00F, 0x8003⟩, ⟨"ADD_Vx__Vy", 0xF00F, 0x8004⟩, ⟨"SUB_Vx__Vy", 0xF00F, 0x8005⟩,
   ⟨"SHR_Vx__Vy", 0xF00F, 0x8006⟩, ⟨"SUBN_Vx__Vy", 0xF00F, 0x8007⟩, ⟨"SHL_Vx__Vy", 0xF00F, 0x800E⟩]

/-- Rows 19 to 25 of R94. -/
def opcodeRows9toE : List OpcodeRow :=
  [⟨"SNE_Vx__Vy", 0xF000, 0x9000⟩, ⟨"LD_I__nnn", 0xF000, 0xA000⟩, ⟨"JP_V0__nnn", 0xF000, 0xB000⟩,
   ⟨"RND_Vx__nn", 0xF000, 0xC000⟩, ⟨"DRW_Vx__Vy__n", 0xF000, 0xD000⟩, ⟨"SKP_Vx", 0xF0FF, 0xE09E⟩,
   ⟨"SKNP_Vx", 0xF0FF, 0xE0A1⟩]

/-- Rows 26 to 34 of R94. -/
def opcodeRowsF : List OpcodeRow :=
  [⟨"LD_Vx__DT", 0xF0FF, 0xF007⟩, ⟨"LD_Vx__K", 0xF0FF, 0xF00A⟩, ⟨"LD_DT__Vx", 0xF0FF, 0xF015⟩,
   ⟨"LD_ST__Vx", 0xF0FF, 0xF018⟩, ⟨"ADD_I__Vx", 0xF0FF, 0xF01E⟩, ⟨"LD_F__Vx", 0xF0FF, 0xF029⟩,
   ⟨"LD_B__Vx", 0xF0FF, 0xF033⟩, ⟨"LD__I___Vx", 0xF0FF, 0xF055⟩, ⟨"LD_Vx___I", 0xF0FF, 0xF065⟩]

/-- The 34 rows of R94, in its order, under the mnemonics of spec/opcode_table.json. -/
def opcodeTable : List OpcodeRow := opcodeRows0to7 ++ opcodeRows8 ++ opcodeRows9toE ++ opcodeRowsF

/-- The mnemonic of an instruction's row. -/
def mnemonicOf : Instr → String
  | .cls => "CLS"
  | .ret => "RET"
  | .jp _ => "JP_nnn"
  | .call _ => "CALL_nnn"
  | .seImm _ _ => "SE_Vx__nn"
  | .sneImm _ _ => "SNE_Vx__nn"
  | .seReg _ _ => "SE_Vx__Vy"
  | .ldImm _ _ => "LD_Vx__nn"
  | .addImm _ _ => "ADD_Vx__nn"
  | .ldReg _ _ => "LD_Vx__Vy"
  | .orReg _ _ => "OR_Vx__Vy"
  | .andReg _ _ => "AND_Vx__Vy"
  | .xorReg _ _ => "XOR_Vx__Vy"
  | .addReg _ _ => "ADD_Vx__Vy"
  | .subReg _ _ => "SUB_Vx__Vy"
  | .shrReg _ _ => "SHR_Vx__Vy"
  | .subnReg _ _ => "SUBN_Vx__Vy"
  | .shlReg _ _ => "SHL_Vx__Vy"
  | .sneReg _ _ => "SNE_Vx__Vy"
  | .ldI _ => "LD_I__nnn"
  | .jpV0 _ _ => "JP_V0__nnn"
  | .rnd _ _ => "RND_Vx__nn"
  | .drw _ _ _ => "DRW_Vx__Vy__n"
  | .skp _ => "SKP_Vx"
  | .sknp _ => "SKNP_Vx"
  | .ldVxDt _ => "LD_Vx__DT"
  | .ldVxK _ => "LD_Vx__K"
  | .ldDtVx _ => "LD_DT__Vx"
  | .ldStVx _ => "LD_ST__Vx"
  | .addI _ => "ADD_I__Vx"
  | .ldF _ => "LD_F__Vx"
  | .ldB _ => "LD_B__Vx"
  | .storeRegs _ => "LD__I___Vx"
  | .loadRegs _ => "LD_Vx___I"

/-! ## The host's view of the decoder -/

/-- The instruction the decoder reads from an instruction whose bits are `w`, numbered as spec/opcode_table.json
numbers them; every bit from `nbits` up is 0. Every instruction is one word (R90). -/
def decodeTableWord (nbits w : Nat) : Option Instr :=
  match decode (wordBytes (BitVec.ofNat 16 (w % 2 ^ nbits))) with
  | .ok (i, _) => some i
  | .error _ => none

end Sys2Proof
end

