-- ==== Sys2Proof/Machine/State.lean ====
section
/-!
DEFINITION. The state of CORE as plain data (R20: the complete table), the reasons a step can stop, and the state after
reset (R42). `draws` is the model's own field, the only one R20 does not name.
-/
namespace Sys2Proof.Machine

/-- `Q`, the quirk record: five booleans, constant after construction (R37). -/
structure Quirks where
  /-- `Q.Shift`: shifts take `V[x]` as their operand. -/
  shift : Bool
  /-- `Q.JumpWithOffset`: the jump with offset adds `V[x]`. -/
  jumpWithOffset : Bool
  /-- `Q.StoreLoadMem`: block store and load leave `I` unmodified. -/
  storeLoadMem : Bool
  /-- `Q.DontIndexOverflow`: despite its name, set means `ADD I, Vx` writes the flag. -/
  dontIndexOverflow : Bool
  /-- `Q.LogicKeepFlag`: `OR`, `AND`, `XOR` leave `VF` untouched (added by the spec, decision D17; log 15). -/
  logicKeepFlag : Bool
  deriving DecidableEq, Repr

/-- All quirks off, the default (R37, R42). -/
def Quirks.allOff : Quirks := ⟨false, false, false, false, false⟩

/-- `MEM`, as the list of the bytes that differ from what an unlisted address reads as (its reset contents,
`Machine.resetByte`), addresses strictly rising; `Memory.wf` says so. Log 32. -/
abbrev Memory := List Host.Cell

/-- `FB`: rows from the top, columns from the left, one bit per pixel (R32). -/
abbrev Framebuffer := Vector (Vector Bool Config.width) Config.height

/-- The kind of a memory access that went out of bounds (R62). -/
inductive AccessKind where
  | fetch
  | read
  | write
  deriving DecidableEq, Repr

/-- The fault records of R230. `pc0` is the address the instruction was fetched from, `w` its word. Each is a fault of
the hardware itself, so it is a faithful outcome; where the record's contents rest on a decision of the spec, the log
says so (logs 1, 2). -/
inductive Fault where
  /-- Code 1. Raised by the decode stage for a word that matches no row of R94 (R95, R231). Safe: the machine stops. -/
  | unimplementedOpcode (w pc0 : Word)
  /-- Code 2. Raised by `RET` with an empty stack (R120, R232). Safe: the machine stops. -/
  | stackUnderflow (pc0 w : Word)
  /-- Code 3. Raised by the fetch (no `w`), and by `DRW`, `LD Vx, [I]` (read), `LD B, Vx`, `LD [I], Vx` (write) for the
  first address outside 0 to 4095 (R62, R64, R233). Safe: the machine stops. -/
  | memoryOutOfBounds (kind : AccessKind) (addr : Nat) (pc0 : Word) (w : Option Word)
  /-- Code 4. Raised by `SKP` and `SKNP` with `V[x] > 15` (R210, R234; decision D14, log 14). Safe: the machine stops. -/
  | keyIndexOutOfRange (value : Byte) (pc0 w : Word)
  deriving DecidableEq, Repr

/-- Why the model gives an instruction no meaning. -/
inductive Refusal where
  /-- Raised by `exec` for an instruction that has no meaning yet. No arm is refused now. Safe: nothing is claimed. -/
  | notModelled (mnemonic : String)
  deriving DecidableEq, Repr

/-- The state of CORE: the rows of R20, and `draws`. -/
structure State where
  /-- `V[0..15]` (R21); `V[15]` is the flag `VF` (R22). -/
  v : Vector Byte 16
  /-- `PC`: 16 bits, never masked to 12 (R24; decision D8, log 29). -/
  pc : Word
  /-- `I` (R27). -/
  i : Word
  /-- `STACK`, newest last, with no depth limit (R20, R28; decision D22, log 18). -/
  stack : List Word
  /-- `DT`, the delay timer (R30). -/
  dt : Byte
  /-- `ST`, the sound timer (R30). -/
  st : Byte
  /-- `MEM` (R31). -/
  mem : Memory
  /-- `FB` (R32). -/
  fb : Framebuffer
  /-- `UPD`, update pending (R34). -/
  upd : Bool
  /-- `KEYS`, bit `k` is key `k` (R35). -/
  keys : Word
  /-- `KEYS_PREV` (R35). -/
  keysPrev : Word
  /-- `Q` (R37). -/
  q : Quirks
  /-- `FAULT`: none, or the first fault (R39). -/
  fault : Option Fault
  /-- How many random bytes have been drawn: the model's own field (log 3). -/
  draws : Nat
  deriving DecidableEq, Repr

/-- The state after reset, before the loader runs (R42): `PC` at 0x200, the default quirks, memory at its reset
contents, everything else zero, empty or off (decision D7, log 4). `draws` starts at 0 (DESIGN CHOICE, log 3). -/
def State.reset : State :=
  { v := Vector.replicate 16 0#8, pc := BitVec.ofNat 16 Config.progStart, i := 0#16, stack := [], dt := 0#8, st := 0#8,
    mem := [], fb := Vector.replicate Config.height (Vector.replicate Config.width false), upd := false, keys := 0#16,
    keysPrev := 0#16, q := Quirks.allOff, fault := none, draws := 0 }

end Sys2Proof.Machine
end

