-- ==== Sys2Proof/Machine/Flags.lean ====
section
/-!
DEFINITION. Every flag computation of the spec (R22, R153): the carry of an addition, the not-borrow of a subtraction,
the bit a shift pushes out, the wrap-around of the index register. `VF` always receives 0x00 or 0x01.
-/
namespace Sys2Proof.Machine

/-- `bool(c)` as the byte `VF` receives: 0x00 or 0x01 in all 8 bits (R8, R22). -/
def flagByte (c : Bool) : Byte := if c then 0x01#8 else 0x00#8

/-- 1 iff `a + b > 255` (R146). -/
def carryOut (a b : Byte) : Bool := decide (a.toNat + b.toNat > 255)

/-- 1 iff `a >= b`: no borrow in `a - b`, "the opposite sense from a carry-out convention" (R147, R149). -/
def noBorrow (a b : Byte) : Bool := decide (a.toNat ≥ b.toNat)

/-- The bit a right shift by one pushes out: bit 0 of the operand (R148). -/
def shiftedOutRight (s : Byte) : Bool := s.getLsbD 0

/-- The bit a left shift by one pushes out: bit 7 of the operand (R150). -/
def shiftedOutLeft (s : Byte) : Bool := s.getLsbD 7

/-- 1 iff `I + V[x] > 65535` (R172). -/
def indexOverflow (i : Word) (b : Byte) : Bool := decide (i.toNat + b.toNat > 65535)

end Sys2Proof.Machine
end

