-- ==== Sys2Proof/Machine/Memory.lean ====
section
/-!
DEFINITION. `MEM` (R31, R60 to R68): its reset contents, the canonical form of its list, and the two primitives
`MemRead` and `MemWrite` with their bounds check (R62), from which every wider transfer is built (R66, R171).
-/
namespace Sys2Proof.Machine

/-- The glyphs of digits 0 to 7 (R29). The bytes are PRESUMED by the spec itself (decision D6; log 8). -/
def glyphs0to7 : List Byte :=
  [0xF0, 0x90, 0x90, 0x90, 0xF0,
   0x20, 0x60, 0x20, 0x20, 0x70,
   0xF0, 0x10, 0xF0, 0x80, 0xF0,
   0xF0, 0x10, 0xF0, 0x10, 0xF0,
   0x90, 0x90, 0xF0, 0x10, 0x10,
   0xF0, 0x80, 0xF0, 0x10, 0xF0,
   0xF0, 0x80, 0xF0, 0x90, 0xF0,
   0xF0, 0x10, 0x20, 0x40, 0x40]

/-- The glyphs of digits 8 to F (R29). -/
def glyphs8toF : List Byte :=
  [0xF0, 0x90, 0xF0, 0x90, 0xF0,
   0xF0, 0x90, 0xF0, 0x10, 0xF0,
   0xF0, 0x90, 0xF0, 0x90, 0x90,
   0xE0, 0x90, 0xE0, 0x90, 0xE0,
   0xF0, 0x80, 0x80, 0x80, 0xF0,
   0xE0, 0x90, 0x90, 0x90, 0xE0,
   0xF0, 0x80, 0xF0, 0x80, 0xF0,
   0xF0, 0x80, 0xF0, 0x80, 0x80]

/-- `GLYPHS`: 16 glyphs of 5 bytes, digit 0 first (R29). -/
def glyphTable : List Byte := glyphs0to7 ++ glyphs8toF

/-- The byte of `MEM` at address `a` after reset, before the loader runs (R42, R61): the glyph table at 0x050 to 0x09F,
0 elsewhere. This is what an unlisted address reads as. -/
def resetByte (a : Nat) : Byte :=
  if Config.glyphBase ≤ a then glyphTable.getD (a - Config.glyphBase) 0#8 else 0#8

/-- `MEM[a]`. -/
def Memory.read : Memory → Nat → Byte
  | [], a => resetByte a
  | c :: m, a => if c.1 = a then c.2 else Memory.read m a

/-- List the byte `b` at address `a`, keeping the addresses rising. -/
def Memory.put : Memory → Nat → Byte → Memory
  | [], a, b => [(a, b)]
  | c :: m, a, b => if a < c.1 then (a, b) :: c :: m else if a = c.1 then (a, b) :: m else c :: Memory.put m a b

/-- Take address `a` off the list. -/
def Memory.drop (m : Memory) (a : Nat) : Memory := m.filter (fun c => c.1 != a)

/-- `MEM[a] <- b`, in canonical form: a byte equal to its reset value is not listed. -/
def Memory.write (m : Memory) (a : Nat) (b : Byte) : Memory :=
  if b = resetByte a then Memory.drop m a else Memory.put m a b

/-- The canonical form: addresses strictly rising and inside 0 to 4095, no listed byte equal to its reset value. -/
abbrev Memory.wf (m : Memory) : Prop :=
  m.Pairwise (fun c d => c.1 < d.1) ∧ ∀ c ∈ m, c.1 < Config.memSize ∧ c.2 ≠ resetByte c.1

/-- `MemRead(a, 1)`: the byte, or the out-of-bounds address (R62). -/
def memRead (m : Memory) (a : Nat) : Except Nat Byte :=
  if a < Config.memSize then .ok (Memory.read m a) else .error a

/-- `MemWrite(a, 1, b)`: the new memory, or the out-of-bounds address (R62). The glyph table is not protected (R68;
decision D21, log 17). -/
def memWrite (m : Memory) (a : Nat) (b : Byte) : Except Nat Memory :=
  if a < Config.memSize then .ok (Memory.write m a b) else .error a

/-- Read `n` bytes at `a`, `a + 1`, … in this order; the first address out of bounds stops it. The sums are integers,
never reduced (R63; decision D30, log 30). -/
def readBytes (m : Memory) (a : Nat) : Nat → Except Nat (List Byte)
  | 0 => .ok []
  | n + 1 =>
    match memRead m a with
    | .error e => .error e
    | .ok b =>
      match readBytes m (a + 1) n with
      | .error e => .error e
      | .ok bs => .ok (b :: bs)

/-- Write bytes at `a`, `a + 1`, … in this order; the first address out of bounds stops it, and then no byte is
written (R237). The sums are integers, never reduced (R63; decision D30, log 30). -/
def writeBytes (m : Memory) (a : Nat) : List Byte → Except Nat Memory
  | [] => .ok m
  | b :: bs =>
    match memWrite m a b with
    | .error e => .error e
    | .ok m' => writeBytes m' (a + 1) bs

end Sys2Proof.Machine
end

