-- ==== Sys2Proof/Machine/Ops.lean ====
section
/-!
DEFINITION. The named operations over registers, the stack and the program counter, and what a fault does (R236).
A fault is this hardware's only exception: it has no handler, saves no PC and changes no mode (R236), and there is
no return from one (R239).
-/
namespace Sys2Proof.Machine

/-! ## One update per element of the state -/

/-- `PC <- a`. -/
def State.setPc (s : State) (a : Word) : State := { s with pc := a }

/-- `I <- a`. -/
def State.setI (s : State) (a : Word) : State := { s with i := a }

/-- Replace `STACK`. -/
def State.setStack (s : State) (l : List Word) : State := { s with stack := l }

/-- `DT <- b`. -/
def State.setDt (s : State) (b : Byte) : State := { s with dt := b }

/-- `ST <- b`. -/
def State.setSt (s : State) (b : Byte) : State := { s with st := b }

/-- Replace `MEM`. -/
def State.setMem (s : State) (m : Memory) : State := { s with mem := m }

/-- Replace `FB` and set `UPD`, which every writer of the framebuffer does (R34; decision D26, log 22). -/
def State.setFb (s : State) (f : Framebuffer) : State := { s with fb := f, upd := true }

/-- `V[x] <- b`. -/
def writeV (s : State) (x : Reg) (b : Byte) : State := { s with v := s.v.set x.val b x.isLt }

/-- `V[x]`: no register is hard-wired or banked (R21). -/
def readV (s : State) (x : Reg) : Byte := s.v[x.val]

/-- Write `VF` as a flag: 0 or 1, always overwritten (R22). -/
def writeFlag (s : State) (c : Bool) : State := writeV s VF (flagByte c)

/-- Write a result, then the flag: the flag is last, so a destination of register 15 ends holding the flag
(R23; decision D9, log 10). -/
def writeResultThenFlag (s : State) (x : Reg) (b : Byte) (c : Bool) : State := writeFlag (writeV s x b) c

/-- `V[k] <- bs[0]`, `V[k+1] <- bs[1]`, … in this order. -/
def writeVs (s : State) (k : Nat) : List Byte → State
  | [] => s
  | b :: bs => writeVs (writeV s (Fin.ofNat 16 k) b) (k + 1) bs

/-- The registers `V[0]`, …, `V[x]` (R175). -/
def readVs (s : State) (x : Reg) : List Byte := (List.range (x.val + 1)).map (fun k => readV s (Fin.ofNat 16 k))

/-- A fresh random byte (R152: a free input of the step) and the state that has drawn it (log 3). -/
def drawByte (s : State) : Byte × State := (Config.randomByte s.draws, { s with draws := s.draws + 1 })

/-! ## The stack and the program counter -/

/-- `push(STACK, a)`: `a` becomes the newest entry (R9, R28: no depth limit). -/
def push (s : State) (a : Word) : State := s.setStack (s.stack ++ [a])

/-- `pop(STACK)`: the newest entry and the state without it, or none for an empty stack (R9). -/
def pop (s : State) : Option (Word × State) :=
  match s.stack.getLast? with
  | none => none
  | some a => some (a, s.setStack s.stack.dropLast)

/-- `PC <- (PC + 2) mod 65536` when the condition holds: a skip is always 2 bytes (R127). -/
def skipIf (c : Bool) (s : State) : State := if c then s.setPc (s.pc + 2#16) else s

/-- `PC <- (PC - 2) mod 65536`: the instruction is fetched again (R216). -/
def rewind (s : State) : State := s.setPc (s.pc - 2#16)

/-- `pc0`, the address of the instruction being executed: the fetch has already added 2 (R25). DEDUCED; log 2. -/
def pc0 (s : State) : Word := s.pc - 2#16

/-! ## Faults -/

/-- `raise F(info)`: the step's outcome is *fault* (R236). The outcome carries the record and no state: what the
machine holds afterwards is `State.latchFault` of the state before the step. -/
def raise (f : Fault) : Host.Outcome State Fault Refusal := .fault f

/-- What a faulting step leaves: `FAULT <- f`, everything else as before the step (R236, R237; decision D18, log 1). -/
def State.latchFault (s : State) (f : Fault) : State := { s with fault := some f }

/-- `raise StackUnderflow()` by the instruction `i` (R232). -/
def raiseStackUnderflow (i : Instr) (s : State) : Host.Outcome State Fault Refusal :=
  raise (.stackUnderflow (pc0 s) (encode i))

/-- `raise MemoryOutOfBounds(kind, a)` by the instruction `i` (R233). -/
def raiseOutOfBounds (kind : AccessKind) (a : Nat) (i : Instr) (s : State) : Host.Outcome State Fault Refusal :=
  raise (.memoryOutOfBounds kind a (pc0 s) (some (encode i)))

/-- `raise KeyIndexOutOfRange(k)` by the instruction `i` (R234). -/
def raiseKeyIndex (k : Byte) (i : Instr) (s : State) : Host.Outcome State Fault Refusal :=
  raise (.keyIndexOutOfRange k (pc0 s) (encode i))

/-- The numeric code of a fault (R230; the spec's own numbers, decision D29, log 35). -/
def faultCode : Fault → Nat
  | .unimplementedOpcode _ _ => 1
  | .stackUnderflow _ _ => 2
  | .memoryOutOfBounds _ _ _ _ => 3
  | .keyIndexOutOfRange _ _ _ => 4

end Sys2Proof.Machine
end

