-- ==== Sys2Proof/Machine/Operands.lean ====
section
/-!
DEFINITION. Every operand form of the spec: which register an instruction reads under a quirk (R37), the address
of a transfer (R171), the glyph and the digits of a value (R173, R174), and the key queries of R36.
-/
namespace Sys2Proof.Machine

/-- The operand of a shift: `V[x]` with `Q.Shift` set, `V[y]` with it clear (R148, R150). -/
def shiftSource (s : State) (x y : Reg) : Byte := if s.q.shift then readV s x else readV s y

/-- The register the jump with offset adds: `x` with `Q.JumpWithOffset` set, register 0 with it clear (R128). -/
def offsetReg (s : State) (x : Reg) : Reg := if s.q.jumpWithOffset then x else 0

/-- The destination of the reverse subtraction (R149): `x`, or `y` under the literal reading. -/
def subnTarget (d : SubnDest) (x y : Reg) : Reg :=
  match d with
  | .x => x
  | .y => y

/-- A 12-bit immediate as an address: zero-extended (R93). -/
def addrOf (nnn : Addr12) : Word := nnn.zeroExtend 16

/-- Where a transfer through `I` starts: the integer `I` (R63, R171). -/
def indexAddr (s : State) : Nat := s.i.toNat

/-- `0x50 + 5 * V[x]`, not masked (R173; decision D13, log 13). -/
def glyphAddr (b : Byte) : Word := BitVec.ofNat 16 (Config.glyphBase + Config.glyphBytes * b.toNat)

/-- The hundreds, tens and ones of a byte (R174). -/
def bcdDigits (b : Byte) : List Byte :=
  [BitVec.ofNat 8 (b.toNat / 100), BitVec.ofNat 8 (b.toNat / 10 % 10), BitVec.ofNat 8 (b.toNat % 10)]

/-- The index register after a block transfer of `V[0..x]`: unmodified with `Q.StoreLoadMem` set, advanced by `x + 1`
with it clear (R175, R176). The spec adds 1 per byte; the sum is the same (log 26). -/
def indexAfterBlock (s : State) (x : Reg) : Word :=
  if s.q.storeLoadMem then s.i else s.i + BitVec.ofNat 16 (x.val + 1)

/-- `is_down(k)`: key `k` is down (R36). -/
def isDown (keys : Word) (k : Nat) : Bool := keys.getLsbD k

/-- `was_released(k)`: key `k` was down at the previous sample and is not now (R36). No instruction reads it. -/
def wasReleased (s : State) (k : Nat) : Bool := isDown s.keysPrev k && !isDown s.keys k

/-- `any_down()` (R36). -/
def anyDown (keys : Word) : Bool := keys != 0#16

/-- `lowest_down()`: the smallest `k` with `KEYS[k] = 1`, none when no key is down (R36). -/
def lowestDown (keys : Word) : Option Nat := (List.range 16).find? (fun k => isDown keys k)

end Sys2Proof.Machine
end

