-- ==== Sys2Proof/Machine/Alu.lean ====
section
/-!
DEFINITION. The register, arithmetic, logic, shift and random instructions (`41_alu.md`). None touches `PC`, `I`,
memory, the stack, the timers or the framebuffer, and none can fault.
-/
namespace Sys2Proof.Machine

/-- `LD Vx, nn` (R140). -/
def execLdImm (x : Reg) (nn : Byte) (s : State) : Host.Outcome State Fault Refusal := .next (writeV s x nn)

/-- `ADD Vx, nn` (R141): wraps, writes no flag. -/
def execAddImm (x : Reg) (nn : Byte) (s : State) : Host.Outcome State Fault Refusal :=
  .next (writeV s x (readV s x + nn))

/-- `LD Vx, Vy` (R142). -/
def execLdReg (x y : Reg) (s : State) : Host.Outcome State Fault Refusal := .next (writeV s x (readV s y))

/-- The flag clear that comes before a logic operation reads its operands, unless `Q.LogicKeepFlag` (R143;
decision D10, log 11; decision D17, log 15). -/
def logicClear (s : State) : State := if s.q.logicKeepFlag then s else writeFlag s false

/-- A logic operation: clear, then read, then write (R143 to R145). -/
def logicOp (f : Byte → Byte → Byte) (x y : Reg) (s : State) : State :=
  writeV (logicClear s) x (f (readV (logicClear s) x) (readV (logicClear s) y))

/-- `OR Vx, Vy` (R143). -/
def execOr (x y : Reg) (s : State) : Host.Outcome State Fault Refusal := .next (logicOp (fun a b => a ||| b) x y s)

/-- `AND Vx, Vy` (R144). -/
def execAnd (x y : Reg) (s : State) : Host.Outcome State Fault Refusal := .next (logicOp (fun a b => a &&& b) x y s)

/-- `XOR Vx, Vy` (R145). -/
def execXor (x y : Reg) (s : State) : Host.Outcome State Fault Refusal := .next (logicOp (fun a b => a ^^^ b) x y s)

/-- `ADD Vx, Vy` (R146): the sum `mod 256`, then the carry into `VF`. -/
def execAdd (x y : Reg) (s : State) : Host.Outcome State Fault Refusal :=
  .next (writeResultThenFlag s x (readV s x + readV s y) (carryOut (readV s x) (readV s y)))

/-- A subtraction `a - b` into register `d`, then not-borrow into `VF` (R147, R149). -/
def subtractInto (d : Reg) (a b : Byte) (s : State) : State := writeResultThenFlag s d (a - b) (noBorrow a b)

/-- `SUB Vx, Vy` (R147). -/
def execSub (x y : Reg) (s : State) : Host.Outcome State Fault Refusal :=
  .next (subtractInto x (readV s x) (readV s y) s)

/-- The reverse subtraction `V[y] - V[x]` under either reading of its destination (R149). -/
def reverseSubtract (d : SubnDest) (x y : Reg) (s : State) : State :=
  subtractInto (subnTarget d x y) (readV s y) (readV s x) s

/-- `SUBN Vx, Vy` (R149), with the destination the spec takes (decision D12; log 9). -/
def execSubn (x y : Reg) (s : State) : Host.Outcome State Fault Refusal :=
  .next (reverseSubtract Config.subnDest x y s)

/-- `SHR Vx, Vy` (R148): logical, by one. -/
def execShr (x y : Reg) (s : State) : Host.Outcome State Fault Refusal :=
  .next (writeResultThenFlag s x (shiftSource s x y >>> 1) (shiftedOutRight (shiftSource s x y)))

/-- `SHL Vx, Vy` (R150): by one. -/
def execShl (x y : Reg) (s : State) : Host.Outcome State Fault Refusal :=
  .next (writeResultThenFlag s x (shiftSource s x y <<< 1) (shiftedOutLeft (shiftSource s x y)))

/-- `RND Vx, nn` (R152): a fresh free byte, masked. -/
def execRnd (x : Reg) (nn : Byte) (s : State) : Host.Outcome State Fault Refusal :=
  .next (writeV (drawByte s).2 x ((drawByte s).1 &&& nn))

end Sys2Proof.Machine
end

