-- ==== Sys2Proof/Machine/Display.lean ====
section
/-!
DEFINITION. The framebuffer and the XOR sprite blitter (`43_display.md`), in the loop order of R192: bytes in ascending
order, bits left to right.
-/
namespace Sys2Proof.Machine

/-- `FB[row][col]` (R32). -/
def Framebuffer.pixel (f : Framebuffer) (row : Fin Config.height) (col : Fin Config.width) : Bool :=
  f[row.val][col.val]

/-- `FB[row][col] <- b`. -/
def Framebuffer.setPixel (f : Framebuffer) (row : Fin Config.height) (col : Fin Config.width) (b : Bool) :
    Framebuffer :=
  f.set row.val (f[row.val].set col.val b col.isLt) row.isLt

/-- Every pixel 0 (R190). -/
def Framebuffer.clear : Framebuffer := Vector.replicate Config.height (Vector.replicate Config.width false)

/-- Sprite bit `c` of a byte is its bit `7 - c`: the most significant bit is the leftmost pixel (R191; decision D35,
log 25). -/
def spriteBit (b : Byte) (c : Nat) : Bool := b.getLsbD (7 - c)

/-- The display row of sprite row `r`: `(vy + r) mod HEIGHT` (R192). -/
def spriteRow (vy : Byte) (r : Nat) : Fin Config.height := Fin.ofNat Config.height (vy.toNat + r)

/-- The display column of sprite column `c`: `(vx + c) mod WIDTH` (R192). -/
def spriteCol (vx : Byte) (c : Nat) : Fin Config.width := Fin.ofNat Config.width (vx.toNat + c)

/-- XOR one sprite bit into one pixel; the second component accumulates "a lit pixel was turned off" (R192, R193). -/
def plot (row : Fin Config.height) (col : Fin Config.width) (bit : Bool) (d : Framebuffer × Bool) :
    Framebuffer × Bool :=
  (d.1.setPixel row col (d.1.pixel row col ^^ bit), d.2 || (d.1.pixel row col && bit))

/-- Draw the columns 0 to `k - 1` of the sprite byte `b` on a display row, left to right. -/
def drawBits (vx : Byte) (row : Fin Config.height) (b : Byte) : Nat → Framebuffer × Bool → Framebuffer × Bool
  | 0, d => d
  | k + 1, d => plot row (spriteCol vx k) (spriteBit b k) (drawBits vx row b k d)

/-- Draw sprite rows `r`, `r + 1`, …, top first, 8 columns each. -/
def drawRows (vx vy : Byte) : Nat → List Byte → Framebuffer × Bool → Framebuffer × Bool
  | _, [], d => d
  | r, b :: bs, d => drawRows vx vy (r + 1) bs (drawBits vx (spriteRow vy r) b 8 d)

/-- `CLS` (R190). -/
def execCls (s : State) : Host.Outcome State Fault Refusal := .next (s.setFb Framebuffer.clear)

/-- `DRW Vx, Vy, n` (R192). The coordinates are the registers before `VF` is cleared (decision D11, log 12). The sprite
bytes are read before the first pixel is drawn: no pixel is in `MEM`, and a fault changes nothing (log 26). -/
def execDrw (x y : Reg) (n : BitVec 4) (s : State) : Host.Outcome State Fault Refusal :=
  match readBytes s.mem (indexAddr s) n.toNat with
  | .ok bs =>
    .next (writeFlag (s.setFb (drawRows (readV s x) (readV s y) 0 bs (s.fb, false)).1)
      (drawRows (readV s x) (readV s y) 0 bs (s.fb, false)).2)
  | .error a => raiseOutOfBounds .read a (.drw x y n) s

end Sys2Proof.Machine
end

