-- ==== Sys2Proof/Machine/Flow.lean ====
section
/-!
DEFINITION. The control-flow instructions (`40_flow.md`). A meaning runs on the state after the fetch: `PC` already
holds the address of the following instruction (R12, R25).
-/
namespace Sys2Proof.Machine

/-- `RET` (R120). -/
def execRet (s : State) : Host.Outcome State Fault Refusal :=
  match pop s with
  | none => raiseStackUnderflow .ret s
  | some (a, s') => .next (s'.setPc a)

/-- `JP nnn` (R121). -/
def execJp (nnn : Addr12) (s : State) : Host.Outcome State Fault Refusal := .next (s.setPc (addrOf nnn))

/-- `CALL nnn` (R122): pushes the already advanced `PC`. -/
def execCall (nnn : Addr12) (s : State) : Host.Outcome State Fault Refusal :=
  .next ((push s s.pc).setPc (addrOf nnn))

/-- `SE Vx, nn` (R123). -/
def execSeImm (x : Reg) (nn : Byte) (s : State) : Host.Outcome State Fault Refusal :=
  .next (skipIf (readV s x == nn) s)

/-- `SNE Vx, nn` (R124). -/
def execSneImm (x : Reg) (nn : Byte) (s : State) : Host.Outcome State Fault Refusal :=
  .next (skipIf (readV s x != nn) s)

/-- `SE Vx, Vy` (R125). -/
def execSeReg (x y : Reg) (s : State) : Host.Outcome State Fault Refusal :=
  .next (skipIf (readV s x == readV s y) s)

/-- `SNE Vx, Vy` (R126). -/
def execSneReg (x y : Reg) (s : State) : Host.Outcome State Fault Refusal :=
  .next (skipIf (readV s x != readV s y) s)

/-- `JP V0, nnn` (R128): `PC <- nnn + V[r]`, not masked to 12 bits. -/
def execJpV0 (nnn : Addr12) (x : Reg) (s : State) : Host.Outcome State Fault Refusal :=
  .next (s.setPc (addrOf nnn + (readV s (offsetReg s x)).zeroExtend 16))

end Sys2Proof.Machine
end

