-- ==== Sys2Proof/Machine/Index.lean ====
section
/-!
DEFINITION. The index-register and memory instructions (`42_index_memory.md`). One addressing mode: the integer
`I + k` for the `k`-th byte, each byte bounds-checked (R171).
-/
namespace Sys2Proof.Machine

/-- `LD I, nnn` (R170). -/
def execLdI (nnn : Addr12) (s : State) : Host.Outcome State Fault Refusal := .next (s.setI (addrOf nnn))

/-- `ADD I, Vx` (R172): wraps at 65536; the flag is written only with `Q.DontIndexOverflow` set. -/
def execAddI (x : Reg) (s : State) : Host.Outcome State Fault Refusal :=
  if s.q.dontIndexOverflow then
    .next (writeFlag (s.setI (s.i + (readV s x).zeroExtend 16)) (indexOverflow s.i (readV s x)))
  else .next (s.setI (s.i + (readV s x).zeroExtend 16))

/-- `LD F, Vx` (R173). -/
def execLdF (x : Reg) (s : State) : Host.Outcome State Fault Refusal := .next (s.setI (glyphAddr (readV s x)))

/-- `LD B, Vx` (R174): hundreds, tens, ones at `I`, `I + 1`, `I + 2`; `I` unchanged. -/
def execLdB (x : Reg) (s : State) : Host.Outcome State Fault Refusal :=
  match writeBytes s.mem (indexAddr s) (bcdDigits (readV s x)) with
  | .ok m => .next (s.setMem m)
  | .error a => raiseOutOfBounds .write a (.ldB x) s

/-- `LD [I], Vx` (R175): `V[k]` to `I + k` for `k` in 0 to `x`. -/
def execStoreRegs (x : Reg) (s : State) : Host.Outcome State Fault Refusal :=
  match writeBytes s.mem (indexAddr s) (readVs s x) with
  | .ok m => .next ((s.setMem m).setI (indexAfterBlock s x))
  | .error a => raiseOutOfBounds .write a (.storeRegs x) s

/-- `LD Vx, [I]` (R176): `V[k]` from `I + k` for `k` in 0 to `x`. -/
def execLoadRegs (x : Reg) (s : State) : Host.Outcome State Fault Refusal :=
  match readBytes s.mem (indexAddr s) (x.val + 1) with
  | .ok bs => .next ((writeVs s 0 bs).setI (indexAfterBlock s x))
  | .error a => raiseOutOfBounds .read a (.loadRegs x) s

end Sys2Proof.Machine
end

