-- ==== Sys2Proof/Machine/TimerInput.lean ====
section
/-!
DEFINITION. The timer and keypad instructions (`44_timer_input.md`). They read `KEYS`, never `KEYS_PREV` (R35).
-/
namespace Sys2Proof.Machine

/-- `SKP Vx` (R210, R211): a value above 15 names no key (decision D14, log 14). -/
def execSkp (x : Reg) (s : State) : Host.Outcome State Fault Refusal :=
  if (readV s x).toNat > 15 then raiseKeyIndex (readV s x) (.skp x) s
  else .next (skipIf (isDown s.keys (readV s x).toNat) s)

/-- `SKNP Vx` (R210, R212): "up" is not down now, not the release transition. -/
def execSknp (x : Reg) (s : State) : Host.Outcome State Fault Refusal :=
  if (readV s x).toNat > 15 then raiseKeyIndex (readV s x) (.sknp x) s
  else .next (skipIf (!isDown s.keys (readV s x).toNat) s)

/-- `LD Vx, DT` (R213). -/
def execLdVxDt (x : Reg) (s : State) : Host.Outcome State Fault Refusal := .next (writeV s x s.dt)

/-- `LD Vx, K` (R216): with no key down the instruction is fetched again, otherwise `V[x]` receives the lowest key
down. -/
def execLdVxK (x : Reg) (s : State) : Host.Outcome State Fault Refusal :=
  match lowestDown s.keys with
  | none => .next (rewind s)
  | some k => .next (writeV s x (BitVec.ofNat 8 k))

/-- `LD DT, Vx` (R214). -/
def execLdDtVx (x : Reg) (s : State) : Host.Outcome State Fault Refusal := .next (s.setDt (readV s x))

/-- `LD ST, Vx` (R215). -/
def execLdStVx (x : Reg) (s : State) : Host.Outcome State Fault Refusal := .next (s.setSt (readV s x))

end Sys2Proof.Machine
end

