-- ==== Sys2Proof/Machine/Fetch.lean ====
section
/-!
DEFINITION. Instruction fetch (R64): two bytes at `PC`, big-endian, `PC` advanced by 2 before the instruction runs;
and the decode stage's fault (R231).
-/
namespace Sys2Proof.Machine

/-- The word at address `a`: `MEM[a] :: MEM[a + 1]` (R64, R65). -/
def fetchWord (m : Memory) (a : Nat) : Word := wordOfBytes (Memory.read m a) (Memory.read m (a + 1))

/-- Fetch: the word and the state with `PC` advanced, or the fault when the second byte would be past 4095 (R64). The
address recorded is the first one past the end, and nothing is read (R233; decision D19, log 31). Any parity of `PC` is legal (R67; log 16). -/
def fetch (s : State) : Except Fault (Word × State) :=
  if s.pc.toNat + 1 < Config.memSize then .ok (fetchWord s.mem s.pc.toNat, s.setPc (s.pc + 2#16))
  else .error (.memoryOutOfBounds .fetch (max s.pc.toNat Config.memSize) s.pc none)

/-- Fetch and decode: the instruction and the state it runs on, or the first fault in the order of R238 (fetch bounds,
then decode). The address of an unimplemented opcode is the one it was fetched from (R231). -/
def fetchInstr (s : State) : Except Fault (Instr × State) :=
  match fetch s with
  | .error f => .error f
  | .ok (w, s') =>
    match decodeWord w with
    | .ok i => .ok (i, s')
    | .error _ => .error (.unimplementedOpcode w s.pc)

/-- Store a word where the fetch reads one, big-endian (R65). -/
def placeWord (m : Memory) (a : Nat) (w : Word) : Memory :=
  Memory.write (Memory.write m a (w.extractLsb' 8 8)) (a + 1) (w.extractLsb' 0 8)

/-- An address a fetch can read a word at: `PC` itself, or the program start where `PC` is past the last word. -/
def fetchable (pc : Word) : Word := if pc.toNat + 1 < Config.memSize then pc else BitVec.ofNat 16 Config.progStart

end Sys2Proof.Machine
end

