-- ==== Sys2Proof/Machine/Step.lean ====
section
/-!
DEFINITION. One step of CORE (R10): fetch, decode, execute; and where the host places a word for the next step.
-/
namespace Sys2Proof.Machine

/-- One step: the next state, or a fault (R10). A core whose `FAULT` is set takes no step: its first fault is answered
again (R39, R236; log 1). -/
def step (s : State) : Host.Outcome State Fault Refusal :=
  match s.fault with
  | some f => raise f
  | none =>
    match fetchInstr s with
    | .error f => raise f
    | .ok (i, s') => exec i s'

/-- `s` with the instruction word `w` stored where the next step fetches (R64). A `PC` past the last word, or a fault
already taken, would leave nothing to fetch: then, and only then, `PC` becomes the program start and `FAULT` none
(log 27). -/
def State.withFetchWord (s : State) (nbits w : Nat) : State :=
  { s with
    pc := fetchable s.pc
    fault := none
    mem := placeWord s.mem (fetchable s.pc).toNat (BitVec.ofNat 16 (w % 2 ^ nbits)) }

end Sys2Proof.Machine
end

