-- ==== Sys2Proof/Machine/Environment.lean ====
section
/-!
DEFINITION. What crosses the boundary of CORE (R244 to R256, R270 to R273): the environment's events between steps,
reset and the loader, and the outputs. `deliver` is one input of R256; a run is any sequence of them (log 19).
-/
namespace Sys2Proof.Machine

/-! ## Events -/

/-- One count down, never below 0 (R246). -/
def countDown (t : Byte) : Byte := if t = 0#8 then 0#8 else t - 1#8

/-- TimerTick (R246): both timers by the same event. -/
def timerTick (s : State) : State := { s with dt := countDown s.dt, st := countDown s.st }

/-- InputSample(m) (R248; decision D24, log 20). -/
def inputSample (m : Word) (s : State) : State := { s with keysPrev := s.keys, keys := m }

/-- PresentAck (R250): clears `UPD`, never writes the framebuffer (log 28). -/
def presentAck (s : State) : State := { s with upd := false }

/-! ## Reset and the loader -/

/-- The quirk record of an 8-bit mask; bits 4 to 7 are ignored, `LogicKeepFlag` is given separately (R38; decision D16,
log 24). -/
def quirksOfMask (mask : Byte) (logicKeepFlag : Bool) : Quirks :=
  { shift := mask.getLsbD 0, jumpWithOffset := mask.getLsbD 1, storeLoadMem := mask.getLsbD 2,
    dontIndexOverflow := mask.getLsbD 3, logicKeepFlag := logicKeepFlag }

/-- Copy bytes to `a`, `a + 1`, … (R272). -/
def loadImage (m : Memory) (a : Nat) : List Byte → Memory
  | [] => m
  | b :: bs => loadImage (Memory.write m a b) (a + 1) bs

/-- RESET(Q, image) (R270 to R273): the reset values, the configured quirks, the image copied verbatim to 0x200. An
image longer than 3584 bytes is refused: the machine never becomes ready (R272; decision D28, log 23). -/
def boot (q : Quirks) (image : List Byte) : Option State :=
  if image.length ≤ Config.maxImage then
    some { State.reset with q := q, mem := loadImage [] Config.progStart image }
  else none

/-! ## The inputs of R256 -/

/-- The inputs of CORE; at most one is active at a time (R244, R256). -/
inductive Input where
  /-- `STEP`: execute one instruction. -/
  | step
  /-- `TICK60`: TimerTick. -/
  | tick60
  /-- `KEY_SAMPLE(m)`: InputSample. -/
  | keySample (m : Word)
  /-- `PRESENT_ACK`: PresentAck. -/
  | presentAck
  /-- `RESET(Q, image)`: reset, configure and load. -/
  | reset (q : Quirks) (image : List Byte)
  deriving DecidableEq, Repr

/-- The state after one STEP: the next state, or the state before it with `FAULT` set (R236, R237). -/
def stepState (s : State) : State :=
  match step s with
  | .next t => t
  | .fault f => s.latchFault f
  | .refused _ => s

/-- The machine after one input; none when a reset is refused and no machine is ready. A reset keeps the count of
random draws, so that the draws of the new run are not those of the old one again (log 3). -/
def deliver : Input → State → Option State
  | .step, s => some (stepState s)
  | .tick60, s => some (timerTick s)
  | .keySample m, s => some (inputSample m s)
  | .presentAck, s => some (Machine.presentAck s)
  | .reset q image, s => (boot q image).map (fun t => { t with draws := s.draws })

/-! ## The outputs of R256 -/

/-- Byte `k` of `FBYTES`: channel `k mod 3` of pixel `k / 3` in row-major order, 0 or 255 (R33; decision D25, log 21). -/
def fbyte (f : Framebuffer) (k : Nat) : Byte :=
  if f.pixel (Fin.ofNat Config.height (k / 3 / Config.width)) (Fin.ofNat Config.width (k / 3)) then 255#8 else 0#8

/-- `FBYTES`: `WIDTH * HEIGHT * 3` bytes derived from `FB` (R33). -/
def fbytes (f : Framebuffer) : List Byte := (List.range (Config.height * Config.width * 3)).map (fbyte f)

/-- What the presentation reads at a PresentAck: the frame, only if `UPD` is set (R250). -/
def presentedFrame (s : State) : Option (List Byte) := if s.upd then some (fbytes s.fb) else none

/-- `TONE = bool(ST > 0)` (R247). -/
def tone (s : State) : Bool := decide (s.st.toNat > 0)

end Sys2Proof.Machine
end

