-- ==== Sys2Proof/Safety.lean ====
section
/-!
DEFINITION. The terms claims are stated in: what an instruction leaves unchanged, the illegal words, the invariants of
the machine, the runs the environment can make, and when a program has finished.
-/
namespace Sys2Proof.Machine

/-! ## Frames -/

/-- An element of the state that a step or an event may change: one register, one byte of memory, or a whole element
of R20. -/
inductive Element where
  | v (x : Reg)
  | pc
  | i
  | stack
  | dt
  | st
  | mem (a : Nat)
  | fb
  | upd
  | keys
  | keysPrev
  | q
  | fault
  | draws
  deriving DecidableEq, Repr

/-- From `s` to `t` nothing changed but, at most, the listed elements: every register, every byte of memory as the
model reads it, and every other element is as before. -/
structure ChangesOnly (es : List Element) (s t : State) : Prop where
  v : ∀ x, Element.v x ∉ es → readV t x = readV s x
  pc : Element.pc ∉ es → t.pc = s.pc
  i : Element.i ∉ es → t.i = s.i
  stack : Element.stack ∉ es → t.stack = s.stack
  dt : Element.dt ∉ es → t.dt = s.dt
  st : Element.st ∉ es → t.st = s.st
  mem : ∀ a, Element.mem a ∉ es → Memory.read t.mem a = Memory.read s.mem a
  fb : Element.fb ∉ es → t.fb = s.fb
  upd : Element.upd ∉ es → t.upd = s.upd
  keys : Element.keys ∉ es → t.keys = s.keys
  keysPrev : Element.keysPrev ∉ es → t.keysPrev = s.keysPrev
  q : Element.q ∉ es → t.q = s.q
  fault : Element.fault ∉ es → t.fault = s.fault
  draws : Element.draws ∉ es → t.draws = s.draws

/-- The `n` bytes of memory from address `a` upward. -/
def bytesAt (a n : Nat) : List Element := (List.range n).map (fun k => Element.mem (a + k))

/-! ## Decoding -/

/-- The illegal words, class by class as R95 lists them. -/
def IllegalWord (w : Word) : Prop :=
  (opClass w = 0x0#4 ∧ w ≠ 0x00E0#16 ∧ w ≠ 0x00EE#16) ∨
  (opClass w = 0x5#4 ∧ nField w ≠ 0x0#4) ∨
  (opClass w = 0x8#4 ∧ nField w ∈ [0x8#4, 0x9#4, 0xA#4, 0xB#4, 0xC#4, 0xD#4, 0xF#4]) ∨
  (opClass w = 0xE#4 ∧ nnField w ∉ [0x9E#8, 0xA1#8]) ∨
  (opClass w = 0xF#4 ∧
    nnField w ∉ [0x07#8, 0x0A#8, 0x15#8, 0x18#8, 0x1E#8, 0x29#8, 0x33#8, 0x55#8, 0x65#8])

/-! ## Faults -/

/-- When an instruction's own check fails, instruction by instruction (R230, R233): every instruction not named here
never faults (R235). `s` is the state after the fetch. -/
def OwnCheckFails : Instr → State → Prop
  | .ret, s => s.stack = []
  | .skp x, s | .sknp x, s => (readV s x).toNat > 15
  | .drw _ _ n, s => n.toNat ≥ 1 ∧ s.i.toNat + n.toNat - 1 > 4095
  | .ldB _, s => s.i.toNat > 4093
  | .storeRegs x, s | .loadRegs x, s => s.i.toNat + x.val > 4095
  | _, _ => False

/-! ## Registers -/

/-- A register as a logic operation reads it: after the flag clear, which `Q.LogicKeepFlag` leaves out (R143). -/
def logicOperand (s : State) (r : Reg) : Byte := if s.q.logicKeepFlag = false ∧ r = VF then 0#8 else readV s r

/-- The instructions that write `VF` as a flag (R22). -/
def WritesFlag : Instr → State → Prop
  | .orReg _ _, s | .andReg _ _, s | .xorReg _ _, s => s.q.logicKeepFlag = false
  | .addReg _ _, _ | .subReg _ _, _ | .shrReg _ _, _ | .subnReg _ _, _ | .shlReg _ _, _ | .drw _ _ _, _ => True
  | .addI _, s => s.q.dontIndexOverflow = true
  | _, _ => False

/-- The instructions that name register `r` as a destination: the register the result goes to, or for
`LD Vx, [I]` one of those loaded (R21, R176). -/
def NamesDestination : Instr → Reg → Prop
  | .ldImm x _, r | .addImm x _, r | .ldReg x _, r | .orReg x _, r | .andReg x _, r | .xorReg x _, r
  | .addReg x _, r | .subReg x _, r | .shrReg x _, r | .shlReg x _, r | .rnd x _, r | .ldVxDt x, r | .ldVxK x, r => r = x
  | .subnReg x y, r => r = subnTarget Config.subnDest x y
  | .loadRegs x, r => r ≤ x
  | _, _ => False

/-- The instructions that may set `PC` to anything but the address of the next instruction: the control transfers, the
six skips and `LD Vx, K` (R25). R127 leaves `SKP` and `SKNP` out of its list; log 33. -/
def MovesPc : Instr → Prop
  | .ret | .jp _ | .call _ | .seImm _ _ | .sneImm _ _ | .seReg _ _ | .sneReg _ _ | .jpV0 _ _ | .skp _ | .sknp _
  | .ldVxK _ => True
  | _ => False

/-! ## Sprites, as pixels -/

/-- Sprite bit (r, c) of a draw whose bytes start at the integer address `a`: bit `7 - c` of the byte at `a + r`
(R191). -/
def spriteAt (s : State) (a r c : Nat) : Bool := (Memory.read s.mem (a + r)).getLsbD (7 - c)

/-- The sprite bit (r, c), of an `n`-row sprite drawn at column `vx` and row `vy`, lands on the pixel (row, col)
(R192). -/
def landsOn (vx vy : Byte) (n r c row col : Nat) : Prop :=
  r < n ∧ c < 8 ∧ row = (vy.toNat + r) % Config.height ∧ col = (vx.toNat + c) % Config.width

/-! ## Invariants -/

/-- Memory is in canonical form. -/
def MemoryCanonical (s : State) : Prop := Memory.wf s.mem

/-- The bounds of R25 and R120: `PC` is at most 0x10FE and every return address at most 4096. -/
def PcBounded (s : State) : Prop := s.pc.toNat ≤ 0x10FE ∧ ∀ a ∈ s.stack, a.toNat ≤ 4096

/-! ## Runs -/

/-- The states the machine can be in: after a reset with any quirks and any image that fits, and after any input
from such a state, in any order and number (R244: no relation between steps and events). -/
inductive Reachable : State → Prop where
  | boot (q : Quirks) (image : List Byte) (s : State) (h : boot q image = some s) : Reachable s
  | input (a : Input) (s t : State) (hs : Reachable s) (h : deliver a s = some t) : Reachable t

/-- A program has finished when it is parked: the word at `PC` is `JP PC` (R275; decision D33, log 35). -/
def Parked (s : State) : Prop :=
  s.fault = none ∧ s.pc.toNat ≤ 0xFFE ∧ fetchWord s.mem s.pc.toNat = 0x1000#16 ||| s.pc

/-- The core can take its next step: no fault so far, a word to fetch, and the word is an instruction (R238). -/
def CanFetch (s : State) : Prop :=
  s.fault = none ∧ s.pc.toNat ≤ 4094 ∧ ¬ IllegalWord (fetchWord s.mem s.pc.toNat)

end Sys2Proof.Machine
end

