-- ==== Sys2Proof/Certificates/Slice0/Obligations.lean ====
section
/-!
DEFINITION. The statements about CORE, from the numbered rules of spec/. A statement about `exec` is about the
state after the fetch, where `PC` already holds the address of the following instruction (R12, R25). Every statement
about a result gives the frame as well: `ChangesOnly` names all that may differ, registers one by one, memory byte by
byte as the model reads it.
-/
open Sys2Proof Sys2Proof.Machine

/-! ## Encoding (30_encoding.md) -/

/-- Decoding the word, or the bytes, of a well-formed instruction gives it back (R103, R65). The opcode values are the
spec's decision D1 (log 5), the bottom nibble `encode` writes in class 9 is D4 (log 6), and that a `JP V0, nnn` term is
well formed only with its own high nibble as `x` is the model's choice (log 34). -/
def Obligations.DecodeOfEncodeIsIdentity : Prop :=
  ∀ (i : Instr) (rest : List Byte), WellFormed i = true →
    decodeWord (encode i) = .ok i ∧ decode (encodeBytes i ++ rest) = .ok (i, rest)

/-- A word that decodes to an instruction is the encoding of that well-formed instruction; only in class 9, whose bottom
nibble decode ignores (R96, decision D4, log 6), is it the canonical word with that nibble cleared. The opcode values
are decision D1 (log 5). -/
def Obligations.EncodeOfDecodeIsCanonicalWord : Prop :=
  ∀ (w : Word) (i : Instr), decodeWord w = .ok i →
    WellFormed i = true ∧
    (opClass w ≠ 0x9#4 → encode i = w) ∧ (opClass w = 0x9#4 → encode i = w &&& 0xFFF0#16)

/-- The nibble dispatch reads a word exactly as the mask and match columns of R94 do: a word that decodes is covered by
the row of its instruction and by no other row, and a word that does not decode is covered by none. The map is decision
D1 (log 5); the masks of its class 0 and class 9 rows are decisions D3 and D4 (log 6). -/
def Obligations.DispatchAgreesWithOpcodeTable : Prop :=
  ∀ w : Word,
    (∀ i, decodeWord w = .ok i →
      ∀ r ∈ opcodeTable, (r.covers w = true ↔ r.mnemonic = mnemonicOf i)) ∧
    (∀ e, decodeWord w = .error e → ∀ r ∈ opcodeTable, r.covers w = false)

/-- The words that are no instruction are exactly those R95 lists (derived there from the map of R94, decision D1, log 5).
That class 0 is matched on the whole word and that every word of class 9 is an instruction (R96, R97) are decisions D3
and D4 (log 6). -/
def Obligations.IllegalWordsAreThoseListed : Prop :=
  ∀ w : Word, (decodeWord w = .error (.unimplementedOpcode w) ↔ IllegalWord w) ∧
    (¬ IllegalWord w → ∃ i, decodeWord w = .ok i)

/-- Words written out from R94's map, one or more of each class, decode to the instruction they stand for, and two words of
classes 0 and 5 are rejected. The map is decision D1 (log 5); that 0x9345 is `SNE V3, V4` is D4, that 0x0000 is no
instruction D3 (log 6). -/
def Obligations.SampleWordsDecode : Prop :=
  decodeWord 0x00E0#16 = .ok .cls ∧ decodeWord 0x00EE#16 = .ok .ret ∧ decodeWord 0x1ABC#16 = .ok (.jp 0xABC#12) ∧
  decodeWord 0x2300#16 = .ok (.call 0x300#12) ∧ decodeWord 0x3A7F#16 = .ok (.seImm 10 0x7F#8) ∧
  decodeWord 0x4207#16 = .ok (.sneImm 2 0x07#8) ∧ decodeWord 0x5340#16 = .ok (.seReg 3 4) ∧
  decodeWord 0x600A#16 = .ok (.ldImm 0 0x0A#8) ∧ decodeWord 0x71FF#16 = .ok (.addImm 1 0xFF#8) ∧
  decodeWord 0x8127#16 = .ok (.subnReg 1 2) ∧ decodeWord 0x9345#16 = .ok (.sneReg 3 4) ∧
  decodeWord 0xA300#16 = .ok (.ldI 0x300#12) ∧ decodeWord 0xB300#16 = .ok (.jpV0 0x300#12 3) ∧
  decodeWord 0xC10F#16 = .ok (.rnd 1 0x0F#8) ∧ decodeWord 0xD015#16 = .ok (.drw 0 1 5#4) ∧
  decodeWord 0xE5A1#16 = .ok (.sknp 5) ∧ decodeWord 0xF165#16 = .ok (.loadRegs 1) ∧
  decodeWord 0x0000#16 = .error (.unimplementedOpcode 0x0000#16) ∧
  decodeWord 0x5341#16 = .error (.unimplementedOpcode 0x5341#16)

/-! ## The step, fetch and faults (20_memory.md, 60_exceptions.md) -/

/-- A step runs the decoded instruction: with no fault pending and two bytes to fetch at `PC` that decode, big-endian,
to `i`, the step is `exec i` on the state whose `PC` has advanced by 2 (R10, R12, R64, R65). -/
def Obligations.StepRunsDecodedInstruction : Prop :=
  ∀ (s : State) (i : Instr), s.fault = none → s.pc.toNat ≤ 4094 →
    decode [Memory.read s.mem s.pc.toNat, Memory.read s.mem (s.pc.toNat + 1)] = .ok (i, []) →
    step s = exec i { s with pc := BitVec.ofNat 16 (s.pc.toNat + 2) }

/-- A fetch with `PC > 4094` faults with kind `fetch` and records the first address past the end, before anything is
read; no other step faults with that kind (R64, R233; the form of the fault is decision D19). -/
def Obligations.FetchPastEndFaults : Prop :=
  ∀ s : State, s.fault = none →
    (s.pc.toNat > 4094 →
      step s = .fault (.memoryOutOfBounds .fetch (max s.pc.toNat 4096) s.pc none)) ∧
    (∀ a p w, step s = .fault (.memoryOutOfBounds .fetch a p w) → s.pc.toNat > 4094)

/-- A step raises `UnimplementedOpcode` exactly when the fetched word is one of the illegal words of R95 (logs 5, 6), and
the record carries the word and the address it was fetched from (R231; that this is the "faulting address" is decision
D18, log 1). -/
def Obligations.UnimplementedOpcodeExactly : Prop :=
  ∀ (s : State) (w a : Word), s.fault = none →
    (step s = .fault (.unimplementedOpcode w a) ↔
      s.pc.toNat ≤ 4094 ∧ w = fetchWord s.mem s.pc.toNat ∧ IllegalWord w ∧ a = s.pc)

/-- An instruction completes exactly when its own check passes, and faults exactly when it fails (R230, R233, R235); it
is never refused. The check of `SKP` and `SKNP` is decision D14 (log 14); that `LD F, Vx` and `CALL` have none is
decisions D13 and D22 (logs 13, 18). -/
def Obligations.InstructionFaultsExactlyWhenItsCheckFails : Prop :=
  ∀ (i : Instr) (s : State),
    (¬ OwnCheckFails i s → ∃ t, exec i s = .next t) ∧ (OwnCheckFails i s → ∃ f, exec i s = .fault f)

/-- The record of every fault an instruction raises (R230, R233): class, offending value or first address out of bounds,
`pc0` (the address before the fetch advanced it) and the instruction's word. The contents of the record are
decisions D18 and D29 (logs 1, 2, 35); `KeyIndexOutOfRange` is decision D14 (log 14). -/
def Obligations.FaultRecordsAreComplete : Prop :=
  ∀ (i : Instr) (s : State) (f : Fault), exec i s = .fault f →
    (i = .ret ∧ f = .stackUnderflow (s.pc - 2#16) 0x00EE#16) ∨
    (∃ x, (i = .skp x ∨ i = .sknp x) ∧ f = .keyIndexOutOfRange (readV s x) (s.pc - 2#16) (encode i)) ∨
    (((∃ x, i = .ldB x) ∨ ∃ x, i = .storeRegs x) ∧
      f = .memoryOutOfBounds .write (max s.i.toNat 4096) (s.pc - 2#16) (some (encode i))) ∨
    (((∃ x y n, i = .drw x y n) ∨ ∃ x, i = .loadRegs x) ∧
      f = .memoryOutOfBounds .read (max s.i.toNat 4096) (s.pc - 2#16) (some (encode i)))

/-- A step that faults leaves `FAULT` set to its record and every other element as before the step, so `PC = pc0`: the
sentence of R237 itself, which is decision D18 (log 1). No other statement rests on it. -/
def Obligations.FaultingStepFreezesState : Prop :=
  ∀ (s : State) (f : Fault), step s = .fault f →
    ∃ t, deliver .step s = some t ∧ t.fault = some f ∧ ChangesOnly [.fault] s t

/-- `FAULT` is sticky: a core whose `FAULT` is set takes no further step, and no input but a reset clears it (R39, R236;
decision D18, log 1). A reset does (R239). -/
def Obligations.FaultIsSticky : Prop :=
  ∀ (s : State) (f : Fault), s.fault = some f →
    deliver .step s = some s ∧
    (∀ (a : Input) (t : State), deliver a s = some t → (∀ q image, a ≠ .reset q image) → t.fault = some f) ∧
    (∀ (q : Quirks) (image : List Byte) (t : State), deliver (.reset q image) s = some t → t.fault = none)

/-! ## Control flow (40_flow.md) -/

/-- R121. -/
def Obligations.JumpSetsPc : Prop :=
  ∀ (nnn : Addr12) (s : State), ∃ t, exec (.jp nnn) s = .next t ∧
    t.pc.toNat = nnn.toNat ∧ ChangesOnly [.pc] s t

/-- R122. That there is no depth limit, so that `CALL` completes on every stack, is decision D22 (R28, log 18); that the
pushed value is the already advanced `PC` is derived in R122 from R25. -/
def Obligations.CallPushesPcAndJumps : Prop :=
  ∀ (nnn : Addr12) (s : State), ∃ t, exec (.call nnn) s = .next t ∧
    t.stack = s.stack ++ [s.pc] ∧ t.pc.toNat = nnn.toNat ∧ ChangesOnly [.pc, .stack] s t

/-- R120: the newest entry is popped into `PC`; an empty stack is a fault of class `StackUnderflow`. -/
def Obligations.ReturnPopsNewestEntry : Prop :=
  ∀ s : State,
    (∀ l a, s.stack = l ++ [a] → ∃ t, exec .ret s = .next t ∧
      t.pc = a ∧ t.stack = l ∧ ChangesOnly [.pc, .stack] s t) ∧
    (s.stack = [] → ∃ p w, exec .ret s = .fault (.stackUnderflow p w))

/-- A `RET` that meets the stack a `CALL` left resumes at the instruction after the `CALL` with the stack from before it
(R120, R122, R127). -/
def Obligations.ReturnResumesAfterCall : Prop :=
  ∀ (nnn : Addr12) (s t r : State), exec (.call nnn) s = .next t → r.stack = t.stack →
    ∃ u, exec .ret r = .next u ∧ u.pc = s.pc ∧ u.stack = s.stack

/-- R123, R124: a skip adds 2 to `PC`, `mod 65536`, and nothing else happens. -/
def Obligations.SkipsOnImmediate : Prop :=
  ∀ (x : Reg) (nn : Byte) (s : State),
    (∃ t, exec (.seImm x nn) s = .next t ∧
      t.pc.toNat = (if readV s x = nn then (s.pc.toNat + 2) % 65536 else s.pc.toNat) ∧ ChangesOnly [.pc] s t) ∧
    (∃ t, exec (.sneImm x nn) s = .next t ∧
      t.pc.toNat = (if readV s x ≠ nn then (s.pc.toNat + 2) % 65536 else s.pc.toNat) ∧ ChangesOnly [.pc] s t)

/-- R125, R126 (their operations; their encodings are in the statements on decoding). -/
def Obligations.SkipsOnRegisters : Prop :=
  ∀ (x y : Reg) (s : State),
    (∃ t, exec (.seReg x y) s = .next t ∧
      t.pc.toNat = (if readV s x = readV s y then (s.pc.toNat + 2) % 65536 else s.pc.toNat) ∧
      ChangesOnly [.pc] s t) ∧
    (∃ t, exec (.sneReg x y) s = .next t ∧
      t.pc.toNat = (if readV s x ≠ readV s y then (s.pc.toNat + 2) % 65536 else s.pc.toNat) ∧
      ChangesOnly [.pc] s t)

/-- R128: the full `nnn` is the base; the register is 0, or `x` with the quirk set. That the sum is not masked to 12 bits
rests on the width of `PC`, decision D8 (R24, log 29). -/
def Obligations.JumpWithOffsetAddsRegister : Prop :=
  ∀ (nnn : Addr12) (x : Reg) (s : State), ∃ t, exec (.jpV0 nnn x) s = .next t ∧
    t.pc.toNat =
      (nnn.toNat + (if s.q.jumpWithOffset = true then (readV s x).toNat else (readV s 0).toNat)) % 65536 ∧
    ChangesOnly [.pc] s t

/-- Only the control transfers, the six skips, and `LD Vx, K` while it waits, leave `PC` anywhere but at the next
instruction (R25; R127 leaves the two key skips out of its list, log 33). -/
def Obligations.OnlyControlFlowMovesPc : Prop :=
  ∀ (i : Instr) (s t : State), exec i s = .next t → t.pc ≠ s.pc →
    MovesPc i ∧ ∀ x, i = .ldVxK x → s.keys = 0#16 ∧ t.pc = s.pc - 2#16

/-! ## Registers, arithmetic, logic (41_alu.md) -/

/-- R140, R142: any register, `VF` too, receives the value as it is. -/
def Obligations.LoadAndCopyRegister : Prop :=
  ∀ (x y : Reg) (nn : Byte) (s : State),
    (∃ t, exec (.ldImm x nn) s = .next t ∧ readV t x = nn ∧ ChangesOnly [.v x] s t) ∧
    (∃ t, exec (.ldReg x y) s = .next t ∧ readV t x = readV s y ∧ ChangesOnly [.v x] s t)

/-- R141: the sum wraps at 256 and no flag is written: `VF` changes only when it is the destination itself. -/
def Obligations.AddImmediateWrapsWithoutFlag : Prop :=
  ∀ (x : Reg) (nn : Byte) (s : State), ∃ t, exec (.addImm x nn) s = .next t ∧
    (readV t x).toNat = ((readV s x).toNat + nn.toNat) % 256 ∧ ChangesOnly [.v x] s t

/-- R143 to R145 with `Q.LogicKeepFlag` clear: `VF` is cleared first, the operands are read after the clear, and a
destination of register 15 ends holding the result. The order is decision D10 (log 11), the quirk D17 (log 15). -/
def Obligations.LogicClearsFlagThenCombines : Prop :=
  ∀ (x y : Reg) (s : State), s.q.logicKeepFlag = false →
    (∃ t, exec (.orReg x y) s = .next t ∧ readV t x = logicOperand s x ||| logicOperand s y ∧
      (x ≠ VF → readV t VF = 0#8) ∧ ChangesOnly [.v x, .v VF] s t) ∧
    (∃ t, exec (.andReg x y) s = .next t ∧ readV t x = logicOperand s x &&& logicOperand s y ∧
      (x ≠ VF → readV t VF = 0#8) ∧ ChangesOnly [.v x, .v VF] s t) ∧
    (∃ t, exec (.xorReg x y) s = .next t ∧ readV t x = logicOperand s x ^^^ logicOperand s y ∧
      (x ≠ VF → readV t VF = 0#8) ∧ ChangesOnly [.v x, .v VF] s t)

/-- R143 to R145 with `Q.LogicKeepFlag` set: `VF` is not written as a flag (decision D17, log 15). -/
def Obligations.LogicKeepsFlagUnderQuirk : Prop :=
  ∀ (x y : Reg) (s : State), s.q.logicKeepFlag = true →
    (∃ t, exec (.orReg x y) s = .next t ∧ readV t x = readV s x ||| readV s y ∧ ChangesOnly [.v x] s t) ∧
    (∃ t, exec (.andReg x y) s = .next t ∧ readV t x = readV s x &&& readV s y ∧ ChangesOnly [.v x] s t) ∧
    (∃ t, exec (.xorReg x y) s = .next t ∧ readV t x = readV s x ^^^ readV s y ∧ ChangesOnly [.v x] s t)

/-- R146: the sum `mod 256`, and `VF` is 1 on a carry and 0 otherwise, in every form. That `VF` holds the carry also
when it is the destination is decision D9 (R23, log 10). -/
def Obligations.AddWritesSumAndCarry : Prop :=
  ∀ (x y : Reg) (s : State), ∃ t, exec (.addReg x y) s = .next t ∧
    (x ≠ VF → (readV t x).toNat = ((readV s x).toNat + (readV s y).toNat) % 256) ∧
    (readV t VF).toNat = (if (readV s x).toNat + (readV s y).toNat > 255 then 1 else 0) ∧
    ChangesOnly [.v x, .v VF] s t

/-- R147: the difference `mod 256`, and `VF` is 1 when there was NO borrow, equality included. Destination 15: decision
D9 (R23, log 10). -/
def Obligations.SubtractWritesDifferenceAndNotBorrow : Prop :=
  ∀ (x y : Reg) (s : State), ∃ t, exec (.subReg x y) s = .next t ∧
    (x ≠ VF → (readV t x).toNat = ((readV s x).toNat + 256 - (readV s y).toNat) % 256) ∧
    (readV t VF).toNat = (if (readV s x).toNat ≥ (readV s y).toNat then 1 else 0) ∧
    ChangesOnly [.v x, .v VF] s t

/-- R149: minuend `V[y]`, subtrahend `V[x]`, not-borrow in `VF`. The instruction writes register `x` (`SUBN_DEST`,
decision D12, log 9); the shared operation is right under either reading of the destination. That `VF` holds the flag also
when it is the destination is decision D9 (R23, log 10). -/
def Obligations.ReverseSubtractUnderEitherDestination : Prop :=
  ∀ (x y : Reg) (s : State),
    exec (.subnReg x y) s = .next (reverseSubtract .x x y s) ∧
    ∀ (d : SubnDest) (z : Reg), z = (match d with | .x => x | .y => y) →
      (z ≠ VF → (readV (reverseSubtract d x y s) z).toNat = ((readV s y).toNat + 256 - (readV s x).toNat) % 256) ∧
      (readV (reverseSubtract d x y s) VF).toNat = (if (readV s y).toNat ≥ (readV s x).toNat then 1 else 0) ∧
      ChangesOnly [.v z, .v VF] s (reverseSubtract d x y s)

/-- R148, R150: the operand is `V[x]` with `Q.Shift` set and `V[y]` with it clear; the result is shifted by one and `VF`
receives the bit shifted out. Destination 15: decision D9 (R23, log 10). -/
def Obligations.ShiftsByOneAndKeepsLostBit : Prop :=
  ∀ (x y : Reg) (s : State) (o : Nat), o = (if s.q.shift = true then readV s x else readV s y).toNat →
    (∃ t, exec (.shrReg x y) s = .next t ∧ (x ≠ VF → (readV t x).toNat = o / 2) ∧ (readV t VF).toNat = o % 2 ∧
      ChangesOnly [.v x, .v VF] s t) ∧
    (∃ t, exec (.shlReg x y) s = .next t ∧ (x ≠ VF → (readV t x).toNat = o * 2 % 256) ∧
      (readV t VF).toNat = o / 128 ∧ ChangesOnly [.v x, .v VF] s t)

/-- R152: the register receives some byte masked with `nn`, so no bit outside `nn` is set, and the draw is used up. The
byte is the free value `Config.randomByte` (decision D15, log 3): the statement holds whatever it is. -/
def Obligations.RandomByteIsMasked : Prop :=
  ∀ (x : Reg) (nn : Byte) (s : State), ∃ t, exec (.rnd x nn) s = .next t ∧
    readV t x = Config.randomByte s.draws &&& nn ∧ readV t x &&& ~~~nn = 0#8 ∧ t.draws ≠ s.draws ∧
    ChangesOnly [.v x, .draws] s t

/-- `VF` changes only by an instruction that writes it as a flag, and then to 0 or 1 unless it is also the destination,
or by one that names register 15 as its destination (R21, R22). The destination of `SUBN` is decision D12 (log 9), the
quirk of the logic operations D17 (log 15). -/
def Obligations.FlagChangesOnlyByItsWriters : Prop :=
  ∀ (i : Instr) (s t : State), exec i s = .next t →
    (readV t VF ≠ readV s VF → WritesFlag i s ∨ NamesDestination i VF) ∧
    (WritesFlag i s → ¬ NamesDestination i VF → readV t VF = 0#8 ∨ readV t VF = 1#8)

/-! ## Index register and memory (42_index_memory.md, 20_memory.md) -/

/-- R170. -/
def Obligations.LoadIndexImmediate : Prop :=
  ∀ (nnn : Addr12) (s : State), ∃ t, exec (.ldI nnn) s = .next t ∧
    t.i.toNat = nnn.toNat ∧ t.i.toNat ≤ 0x0FFF ∧ ChangesOnly [.i] s t

/-- R172: the wrap-around is at 65536; the flag is written only with the quirk set, from the values before the
instruction, in every form (`x = 15` too). -/
def Obligations.AddToIndexWrapsAndFlags : Prop :=
  ∀ (x : Reg) (s : State), ∃ t, exec (.addI x) s = .next t ∧
    t.i.toNat = (s.i.toNat + (readV s x).toNat) % 65536 ∧
    (s.q.dontIndexOverflow = true →
      (readV t VF).toNat = (if s.i.toNat + (readV s x).toNat > 65535 then 1 else 0) ∧
      ChangesOnly [.i, .v VF] s t) ∧
    (s.q.dontIndexOverflow = false → ChangesOnly [.i] s t)

/-- R173: `0x50 + 5 * V[x]`, for every value of the register: it is not masked to 4 bits (decision D13, log 13); the
factor 5 is the spec's resolution C3. -/
def Obligations.FontPointsAtFiveByteGlyph : Prop :=
  ∀ (x : Reg) (s : State), ∃ t, exec (.ldF x) s = .next t ∧
    t.i.toNat = 0x50 + 5 * (readV s x).toNat ∧ ChangesOnly [.i] s t

/-- R174: the three digits at `I`, `I + 1`, `I + 2` and nowhere else; exactly when `I > 4093` a write fault at the first
address above 4095. -/
def Obligations.BcdStoresThreeDigits : Prop :=
  ∀ (x : Reg) (s : State),
    (s.i.toNat ≤ 4093 → ∃ t, exec (.ldB x) s = .next t ∧
      (Memory.read t.mem s.i.toNat).toNat = (readV s x).toNat / 100 ∧
      (Memory.read t.mem (s.i.toNat + 1)).toNat = (readV s x).toNat / 10 % 10 ∧
      (Memory.read t.mem (s.i.toNat + 2)).toNat = (readV s x).toNat % 10 ∧
      ChangesOnly (bytesAt s.i.toNat 3) s t) ∧
    (s.i.toNat > 4093 → ∃ p w, exec (.ldB x) s = .fault (.memoryOutOfBounds .write (max s.i.toNat 4096) p w))

/-- R175: `V[k]` goes to `I + k` for every `k` up to `x`, no other byte changes, and `I` ends at `I + x + 1` or is
unmodified by the quirk; exactly when `I + x > 4095` a write fault at the first address above 4095. -/
def Obligations.StoreWritesRegistersUpward : Prop :=
  ∀ (x : Reg) (s : State),
    (s.i.toNat + x.val ≤ 4095 → ∃ t, exec (.storeRegs x) s = .next t ∧
      (∀ k : Reg, k ≤ x → Memory.read t.mem (s.i.toNat + k.val) = readV s k) ∧
      t.i.toNat = (if s.q.storeLoadMem = true then s.i.toNat else s.i.toNat + x.val + 1) ∧
      ChangesOnly (Element.i :: bytesAt s.i.toNat (x.val + 1)) s t) ∧
    (s.i.toNat + x.val > 4095 →
      ∃ p w, exec (.storeRegs x) s = .fault (.memoryOutOfBounds .write (max s.i.toNat 4096) p w))

/-- R176: every register up to `x` receives its byte, `VF` too when `x = 15`; the registers above `x` and all of memory
are unchanged; exactly when `I + x > 4095` a read fault at the first address above 4095. -/
def Obligations.LoadReadsRegistersUpward : Prop :=
  ∀ (x : Reg) (s : State),
    (s.i.toNat + x.val ≤ 4095 → ∃ t, exec (.loadRegs x) s = .next t ∧
      (∀ k : Reg, k ≤ x → readV t k = Memory.read s.mem (s.i.toNat + k.val)) ∧
      (∀ k : Reg, ¬ k ≤ x → readV t k = readV s k) ∧
      t.i.toNat = (if s.q.storeLoadMem = true then s.i.toNat else s.i.toNat + x.val + 1) ∧
      ChangesOnly (Element.i :: (List.finRange 16).map Element.v) s t) ∧
    (s.i.toNat + x.val > 4095 →
      ∃ p w, exec (.loadRegs x) s = .fault (.memoryOutOfBounds .read (max s.i.toNat 4096) p w))

/-- Storing `V[0..x]` and loading them back from the same start address, the memory not touched in between, gives the
original register values, whatever the registers held meanwhile (R176's round trip). -/
def Obligations.StoreThenLoadRestoresRegisters : Prop :=
  ∀ (x : Reg) (s t r : State), exec (.storeRegs x) s = .next t → r.mem = t.mem → r.i = s.i →
    ∃ u, exec (.loadRegs x) r = .next u ∧ ∀ k : Reg, k ≤ x → readV u k = readV s k

/-- A read returns the value of the latest write to that byte and no other byte changes (R62, R70), whatever the
memory. -/
def Obligations.ReadReturnsLatestWrite : Prop :=
  ∀ (m m' : Memory) (a c : Nat) (b : Byte), memWrite m a b = .ok m' →
    Memory.read m' c = if c = a then b else Memory.read m c

/-- A store is seen by the next fetch with no fence: after `LD [I], Vx` over the address `PC` holds, the word the next
step fetches is made of the two stored registers (R73, R64). -/
def Obligations.StoreIsSeenByNextFetch : Prop :=
  ∀ (x : Reg) (s t : State) (k l : Reg), exec (.storeRegs x) s = .next t →
    l.val = k.val + 1 → l ≤ x → s.pc.toNat = s.i.toNat + k.val → s.fault = none →
    ∀ i, decode [readV s k, readV s l] = .ok (i, []) →
      step t = exec i { t with pc := BitVec.ofNat 16 (t.pc.toNat + 2) }

/-! ## Display (43_display.md, 10_state.md) -/

/-- R190; that `UPD` is set also when no pixel changes is decision D26 (R34, log 22). -/
def Obligations.ClearTurnsEveryPixelOff : Prop :=
  ∀ s : State, ∃ t, exec .cls s = .next t ∧
    (∀ row col, Framebuffer.pixel t.fb row col = false) ∧ t.upd = true ∧ ChangesOnly [.fb, .upd] s t

/-- R192, R193 pixel by pixel: a pixel is toggled exactly when a 1 bit of the sprite lands on it, wrapping per pixel and
per axis; `VF` is 1 exactly when a 1 bit landed on a lit pixel; `UPD` is set. The coordinates are the registers before
`VF` is cleared (decision D11, log 12); the display's size is D5 (log 7), the bit order D35 (log 25), the unconditional
`UPD` D26 (log 22). -/
def Obligations.DrawTogglesExactlyTheSpritePixels : Prop :=
  ∀ (x y : Reg) (n : BitVec 4) (s : State), (n.toNat = 0 ∨ s.i.toNat + n.toNat ≤ 4096) →
    ∃ t, exec (.drw x y n) s = .next t ∧
      (∀ (row : Fin Config.height) (col : Fin Config.width),
        (Framebuffer.pixel t.fb row col ≠ Framebuffer.pixel s.fb row col ↔
          ∃ r c, landsOn (readV s x) (readV s y) n.toNat r c row.val col.val ∧ spriteAt s s.i.toNat r c = true)) ∧
      (readV t VF = 1#8 ∨ readV t VF = 0#8) ∧
      (readV t VF = 1#8 ↔ ∃ (row : Fin Config.height) (col : Fin Config.width) (r c : Nat),
        landsOn (readV s x) (readV s y) n.toNat r c row.val col.val ∧ spriteAt s s.i.toNat r c = true ∧
        Framebuffer.pixel s.fb row col = true) ∧
      t.upd = true ∧ ChangesOnly [.v VF, .fb, .upd] s t

/-- R192, R233: a draw of at least one row that reaches past 4095 faults with the first address above 4095; a draw of no
rows never faults, and sets `UPD` all the same (decision D26, log 22). -/
def Obligations.DrawPastEndFaults : Prop :=
  ∀ (x y : Reg) (n : BitVec 4) (s : State),
    (n.toNat ≥ 1 → s.i.toNat + n.toNat - 1 > 4095 →
      ∃ p w, exec (.drw x y n) s = .fault (.memoryOutOfBounds .read (max s.i.toNat 4096) p w)) ∧
    (n.toNat = 0 → ∃ t, exec (.drw x y n) s = .next t ∧ t.fb = s.fb ∧ readV t VF = 0#8 ∧ t.upd = true)

/-- Drawing the same sprite twice at the same coordinates restores the framebuffer, from any framebuffer, and the second
draw sets `VF` to 1 exactly when a 1 bit landed on a pixel that was off before the first (R196). `r` is the state the
second draw starts from: same framebuffer, sprite bytes, `I` and coordinates. The display's size, the coordinates of
register 15 and the bit order are decisions D5, D11 and D35 (logs 7, 12, 25). -/
def Obligations.DrawTwiceErases : Prop :=
  ∀ (x y : Reg) (n : BitVec 4) (s t r : State), exec (.drw x y n) s = .next t →
    r.fb = t.fb → r.mem = t.mem → r.i = s.i → readV r x = readV s x → readV r y = readV s y →
    ∃ u, exec (.drw x y n) r = .next u ∧ u.fb = s.fb ∧
      (readV u VF = 1#8 ↔ ∃ (row : Fin Config.height) (col : Fin Config.width) (a c : Nat),
        landsOn (readV s x) (readV s y) n.toNat a c row.val col.val ∧ spriteAt s s.i.toNat a c = true ∧
        Framebuffer.pixel s.fb row col = false)

/-- The byte view: `WIDTH * HEIGHT * 3` bytes, the three channels of pixel (row, col) at `(row * WIDTH + col) * 3`, each
0 or 255 (R33; the order is decision D25, log 21, the size D5, log 7). -/
def Obligations.FramebufferBytesAreRgbTriplets : Prop :=
  ∀ f : Framebuffer, (fbytes f).length = 64 * 32 * 3 ∧
    ∀ (row : Fin Config.height) (col : Fin Config.width) (ch : Nat), ch < 3 →
      (fbytes f)[(row.val * 64 + col.val) * 3 + ch]? =
        some (if Framebuffer.pixel f row col = true then 255#8 else 0#8)

/-! ## Timers and keys (44_timer_input.md) -/

/-- R211, R212: the test is of the current state of key `V[x]`; a value above 15 names no key and faults (decision D14,
log 14). -/
def Obligations.KeySkipsTestCurrentState : Prop :=
  ∀ (x : Reg) (s : State) (k : Nat), k = (readV s x).toNat →
    (k ≤ 15 →
      (∃ t, exec (.skp x) s = .next t ∧
        t.pc.toNat = (if s.keys.getLsbD k = true then (s.pc.toNat + 2) % 65536 else s.pc.toNat) ∧
        ChangesOnly [.pc] s t) ∧
      (∃ t, exec (.sknp x) s = .next t ∧
        t.pc.toNat = (if s.keys.getLsbD k = false then (s.pc.toNat + 2) % 65536 else s.pc.toNat) ∧
        ChangesOnly [.pc] s t)) ∧
    (k > 15 → (∃ p w, exec (.skp x) s = .fault (.keyIndexOutOfRange (readV s x) p w)) ∧
      (∃ p w, exec (.sknp x) s = .fault (.keyIndexOutOfRange (readV s x) p w)))

/-- R213, R214, R215: direct copies, and the tone output follows `ST > 0` at once. -/
def Obligations.TimerMovesAreDirectCopies : Prop :=
  ∀ (x : Reg) (s : State),
    (∃ t, exec (.ldVxDt x) s = .next t ∧ readV t x = s.dt ∧ ChangesOnly [.v x] s t) ∧
    (∃ t, exec (.ldDtVx x) s = .next t ∧ t.dt = readV s x ∧ ChangesOnly [.dt] s t) ∧
    (∃ t, exec (.ldStVx x) s = .next t ∧ t.st = readV s x ∧ (tone t = true ↔ readV s x ≠ 0#8) ∧
      ChangesOnly [.st] s t)

/-- R216: with no key down `PC` goes back by 2; with one down `V[x]` receives the smallest key down and `PC` stays at
the next instruction. -/
def Obligations.WaitForKeyRewindsOrReadsLowest : Prop :=
  ∀ (x : Reg) (s : State),
    (s.keys = 0#16 → ∃ t, exec (.ldVxK x) s = .next t ∧
      t.pc.toNat = (s.pc.toNat + 65536 - 2) % 65536 ∧ ChangesOnly [.pc] s t) ∧
    (s.keys ≠ 0#16 → ∃ t, exec (.ldVxK x) s = .next t ∧
      s.keys.getLsbD (readV t x).toNat = true ∧ (∀ j, j < (readV t x).toNat → s.keys.getLsbD j = false) ∧
      ChangesOnly [.v x] s t)

/-- While no key is down, a whole step of `LD Vx, K` leaves the machine exactly as it was (R216, R280). -/
def Obligations.WaitingStepChangesNothing : Prop :=
  ∀ (s : State) (x : Reg), s.fault = none → s.pc.toNat ≤ 4094 →
    decodeWord (fetchWord s.mem s.pc.toNat) = .ok (.ldVxK x) → s.keys = 0#16 → step s = .next s

/-! ## The environment and reset (60_exceptions.md, 70_reset_and_hazards.md) -/

/-- R246: both timers by 1 each, never below 0, and nothing else. -/
def Obligations.TimerTickCountsDownBoth : Prop :=
  ∀ s : State, ∃ t, deliver .tick60 s = some t ∧
    t.dt.toNat = s.dt.toNat - 1 ∧ t.st.toNat = s.st.toNat - 1 ∧ ChangesOnly [.dt, .st] s t

/-- R248, R36: the sample replaces the keys and keeps the previous ones, so a key reads as released exactly when it was
down and is not (the form of the event is decision D24, log 20). -/
def Obligations.InputSampleKeepsPrevious : Prop :=
  ∀ (m : Word) (s : State), ∃ t, deliver (.keySample m) s = some t ∧
    t.keys = m ∧ t.keysPrev = s.keys ∧
    (∀ k, wasReleased t k = true ↔ s.keys.getLsbD k = true ∧ m.getLsbD k = false) ∧
    ChangesOnly [.keys, .keysPrev] s t

/-- R250: the frame is there to read only if an update is pending, the acknowledge clears the flag, and the framebuffer
is not written. That the event always clears the flag is DEDUCED (log 28). -/
def Obligations.PresentAckClearsUpdatePending : Prop :=
  ∀ s : State, (presentedFrame s = if s.upd = true then some (fbytes s.fb) else none) ∧
    ∃ t, deliver .presentAck s = some t ∧ t.upd = false ∧ ChangesOnly [.upd] s t

/-- Each element of R20 is changed only by the instructions that own it: the key masks, the quirks and `FAULT` by none,
`UPD` never cleared, a register only as a destination or as the flag, `PC` only by the instructions of R25, and the
rest by those the rules name (R20 to R22, R25, R27, R28, R30, R32, R34, R35, R37, R66). The destination of `SUBN` is
decision D12 (log 9), the quirk of the logic operations D17 (log 15), the key skips among the movers of `PC` log 33, and
`draws`, which only `RND` changes, is the model's own element (log 3). -/
def Obligations.EachElementHasItsWriters : Prop :=
  ∀ (i : Instr) (s t : State), exec i s = .next t →
    t.keys = s.keys ∧ t.keysPrev = s.keysPrev ∧ t.q = s.q ∧ t.fault = s.fault ∧
    (s.upd = true → t.upd = true) ∧
    (∀ r, readV t r ≠ readV s r → NamesDestination i r ∨ (r = VF ∧ WritesFlag i s)) ∧
    (t.pc ≠ s.pc → MovesPc i) ∧ (t.draws ≠ s.draws → ∃ x nn, i = .rnd x nn) ∧
    (t.stack ≠ s.stack → i = .ret ∨ ∃ nnn, i = .call nnn) ∧
    (t.dt ≠ s.dt → ∃ x, i = .ldDtVx x) ∧ (t.st ≠ s.st → ∃ x, i = .ldStVx x) ∧
    (t.fb ≠ s.fb ∨ t.upd ≠ s.upd → i = .cls ∨ ∃ x y n, i = .drw x y n) ∧
    ((∃ a, Memory.read t.mem a ≠ Memory.read s.mem a) → (∃ x, i = .ldB x) ∨ ∃ x, i = .storeRegs x) ∧
    (t.i ≠ s.i → (∃ nnn, i = .ldI nnn) ∨ (∃ x, i = .addI x) ∨ (∃ x, i = .ldF x) ∨
      (s.q.storeLoadMem = false ∧ ∃ x, i = .storeRegs x ∨ i = .loadRegs x))

/-- Reset with an image that fits: `PC` at 0x200, the image at 0x200 upward and every other byte at its reset value,
the given quirks, a dark screen, no fault; a longer image is refused (R42, R270 to R273). The zero values of `V`, `I`,
`STACK`, `DT`, `ST`, `UPD` and the keys are decision D7 (log 4), the refusal D28 (log 23), the element `FAULT` D18
(log 1), the display's size D5 (log 7), the glyph bytes among the reset values D6 (log 8). -/
def Obligations.BootGivesResetStateWithImage : Prop :=
  ∀ (q : Quirks) (image : List Byte),
    (image.length ≤ 3584 → ∃ s, boot q image = some s ∧
      s.pc = 0x200#16 ∧ s.i = 0#16 ∧ s.stack = [] ∧ s.dt = 0#8 ∧ s.st = 0#8 ∧ s.upd = false ∧ s.keys = 0#16 ∧
      s.keysPrev = 0#16 ∧ s.q = q ∧ s.fault = none ∧ (∀ x, readV s x = 0#8) ∧
      (∀ row col, Framebuffer.pixel s.fb row col = false) ∧
      (∀ j (h : j < image.length), Memory.read s.mem (0x200 + j) = image[j]) ∧
      (∀ a, a < 0x200 ∨ a ≥ 0x200 + image.length → Memory.read s.mem a = resetByte a)) ∧
    (image.length > 3584 → boot q image = none)

/-- What memory reads as at reset: zero outside the glyph table, and at `0x50 + 5 * d` the five rows of digit `d`, shown
for 0, 7 and F (R29, R42; the bytes are decision D6, log 8). -/
def Obligations.ResetMemoryHoldsGlyphs : Prop :=
  (∀ a, a < 0x50 ∨ a ≥ 0xA0 → Memory.read State.reset.mem a = 0#8) ∧
  (List.range 5).map (fun k => Memory.read State.reset.mem (0x50 + k)) = [0xF0#8, 0x90#8, 0x90#8, 0x90#8, 0xF0#8] ∧
  (List.range 5).map (fun k => Memory.read State.reset.mem (0x73 + k)) = [0xF0#8, 0x10#8, 0x20#8, 0x40#8, 0x40#8] ∧
  (List.range 5).map (fun k => Memory.read State.reset.mem (0x9B + k)) = [0xF0#8, 0x80#8, 0xF0#8, 0x80#8, 0x80#8]

/-- The quirks of a mask: bits 0 to 3 in the order of R38, bits 4 to 7 ignored (decision D16, log 24). -/
def Obligations.QuirkMaskBits : Prop :=
  ∀ (m : Byte) (k : Bool),
    quirksOfMask m k = quirksOfMask (m &&& 0x0F#8) k ∧ (quirksOfMask m k).logicKeepFlag = k ∧
    ((quirksOfMask m k).shift = true ↔ m.toNat % 2 = 1) ∧
    ((quirksOfMask m k).jumpWithOffset = true ↔ m.toNat / 2 % 2 = 1) ∧
    ((quirksOfMask m k).storeLoadMem = true ↔ m.toNat / 4 % 2 = 1) ∧
    ((quirksOfMask m k).dontIndexOverflow = true ↔ m.toNat / 8 % 2 = 1)

/-- A parked core stays parked: the step leaves the whole machine as it was (R275; the notion is decision D33, log 35; the
word of `JP` is D1, log 5). -/
def Obligations.ParkedStepChangesNothing : Prop :=
  ∀ s : State, Parked s → step s = .next s

/-! ## Invariants -/

/-- Every step keeps memory in canonical form. That memory is a list in that form (addresses strictly rising and below
4096, no byte listed at its reset value) is the model's choice (log 32); the statement says that no store leaves it. -/
def Obligations.StepKeepsMemoryCanonical : Prop :=
  ∀ s t : State, MemoryCanonical s → step s = .next t → MemoryCanonical t

/-- Every step keeps the bounds of R25 and R120: `PC` at most 0x10FE, every return address at most 4096. The width of `PC`
is decision D8 (log 29). -/
def Obligations.StepKeepsPcBounded : Prop :=
  ∀ s t : State, PcBounded s → step s = .next t → PcBounded t

/-- The reset state meets both invariants, and so does the machine after any boot. The canonical form of memory is the
model's choice (log 32); the empty stack at reset is decision D7 (log 4). -/
def Obligations.BootMeetsInvariants : Prop :=
  MemoryCanonical State.reset ∧ PcBounded State.reset ∧
  ∀ (q : Quirks) (image : List Byte) (s : State), boot q image = some s → MemoryCanonical s ∧ PcBounded s

/-- In every state the machine can be in, whatever the program, the quirks and the environment do: a step is never
refused; while no fault has been taken (R237: nothing is claimed of what is left after one), memory is canonical (the
model's choice of form, log 32) and `PC` and the return addresses are bounded; and a step completes whenever the fetched
word is an instruction whose own check passes (R10, R25, R238, R244). That events come between steps in any number
and order is decision D23 (log 19), what is reached from is a reset with the zeros of D7 (log 4). -/
def Obligations.ReachableStatesAreSoundAndProgress : Prop :=
  ∀ s : State, Reachable s →
    (∀ r, step s ≠ .refused r) ∧ (s.fault = none → MemoryCanonical s ∧ PcBounded s) ∧
    (CanFetch s → ∃ i, decodeWord (fetchWord s.mem s.pc.toNat) = .ok i ∧
      (¬ OwnCheckFails i { s with pc := BitVec.ofNat 16 (s.pc.toNat + 2) } → ∃ t, step s = .next t))
end

