-- ==== Sys2Proof/Laws/Decode.lean ====
section
/-!
SUPPORT. The fields and the encoders as arithmetic on unsigned integers (R7, R91, R103), so that facts about decode and
encode are linear arithmetic.
-/
namespace Sys2Proof

/-! ## Fields -/

theorem opClass_toNat (w : Word) : (opClass w).toNat = w.toNat / 4096 := by
  have := w.isLt
  simp only [opClass, BitVec.extractLsb'_toNat, Nat.shiftRight_eq_div_pow]
  omega

theorem xField_val (w : Word) : (xField w).val = w.toNat / 256 % 16 := by
  simp [xField, Nat.shiftRight_eq_div_pow]

theorem yField_val (w : Word) : (yField w).val = w.toNat / 16 % 16 := by
  simp [yField, Nat.shiftRight_eq_div_pow]

theorem nField_toNat (w : Word) : (nField w).toNat = w.toNat % 16 := by
  simp [nField]

theorem nnField_toNat (w : Word) : (nnField w).toNat = w.toNat % 256 := by
  simp [nnField]

theorem nnnField_toNat (w : Word) : (nnnField w).toNat = w.toNat % 4096 := by
  simp [nnnField]

theorem highNibble_val (nnn : Addr12) : (highNibble nnn).val = nnn.toNat / 256 := by
  have := nnn.isLt
  simp only [highNibble, BitVec.extractLsb'_toNat, Nat.shiftRight_eq_div_pow, Fin.val_ofNat]
  omega

theorem wordOfBytes_toNat (hi lo : Byte) : (wordOfBytes hi lo).toNat = 2 ^ 8 * hi.toNat + lo.toNat := by
  rw [wordOfBytes, BitVec.toNat_append, Nat.shiftLeft_eq, Nat.mul_comm, ← Nat.two_pow_add_eq_or_of_lt lo.isLt]

/-- A word is put together again from its two bytes (R65). -/
theorem wordOfBytes_of_word (w : Word) : wordOfBytes (w.extractLsb' 8 8) (w.extractLsb' 0 8) = w := by
  apply BitVec.eq_of_toNat_eq
  have := w.isLt
  rw [wordOfBytes_toNat]
  simp only [BitVec.extractLsb'_toNat, Nat.shiftRight_eq_div_pow]
  omega

/-! ## Encoders -/

theorem xBits_toNat (x : Reg) : (xBits x).toNat = 256 * x.val := by
  have := x.isLt
  simp only [xBits, BitVec.toNat_shiftLeft, BitVec.toNat_ofNat, Nat.shiftLeft_eq]
  omega

theorem yBits_toNat (y : Reg) : (yBits y).toNat = 16 * y.val := by
  have := y.isLt
  simp only [yBits, BitVec.toNat_shiftLeft, BitVec.toNat_ofNat, Nat.shiftLeft_eq]
  omega

/-- Format XNN over a class `c`. -/
theorem encXNN_toNat (m : Word) (c : Nat) (hm : m.toNat = 4096 * c) (x : Reg) (nn : Byte) :
    (encXNN m x nn).toNat = 4096 * c + 256 * x.val + nn.toNat := by
  have hx := x.isLt
  have hn := nn.isLt
  have h1 := Nat.two_pow_add_eq_or_of_lt (i := 12) (b := 256 * x.val) (by omega) c
  have h2 := Nat.two_pow_add_eq_or_of_lt (i := 8) (b := nn.toNat) (by omega) (16 * c + x.val)
  have h3 : 2 ^ 8 * (16 * c + x.val) = 2 ^ 12 * c + 256 * x.val := by omega
  have h4 : (BitVec.zeroExtend 16 nn).toNat = nn.toNat := by
    simp only [BitVec.truncate_eq_setWidth, BitVec.toNat_setWidth]; omega
  rw [encXNN, BitVec.toNat_or, BitVec.toNat_or, hm, xBits_toNat, h4, show 4096 = 2 ^ 12 from rfl, ← h1, ← h3, ← h2]

/-- Format XYN over a class `c`. -/
theorem encXYN_toNat (m : Word) (c : Nat) (hm : m.toNat = 4096 * c) (x y : Reg) (n : BitVec 4) :
    (encXYN m x y n).toNat = 4096 * c + 256 * x.val + 16 * y.val + n.toNat := by
  have hx := x.isLt
  have hy := y.isLt
  have hn := n.isLt
  have h1 := Nat.two_pow_add_eq_or_of_lt (i := 12) (b := 256 * x.val) (by omega) c
  have h2 := Nat.two_pow_add_eq_or_of_lt (i := 8) (b := 16 * y.val) (by omega) (16 * c + x.val)
  have h3 := Nat.two_pow_add_eq_or_of_lt (i := 4) (b := n.toNat) (by omega) (256 * c + 16 * x.val + y.val)
  have e2 : 2 ^ 8 * (16 * c + x.val) = 2 ^ 12 * c + 256 * x.val := by omega
  have e3 : 2 ^ 4 * (256 * c + 16 * x.val + y.val) = 2 ^ 12 * c + 256 * x.val + 16 * y.val := by omega
  have h4 : (BitVec.zeroExtend 16 n).toNat = n.toNat := by
    simp only [BitVec.truncate_eq_setWidth, BitVec.toNat_setWidth]; omega
  rw [encXYN, BitVec.toNat_or, BitVec.toNat_or, BitVec.toNat_or, hm, xBits_toNat, yBits_toNat, h4,
    show 4096 = 2 ^ 12 from rfl, ← h1, ← e2, ← h2, e2, ← e3, ← h3]

/-- Format NNN over a class `c`. -/
theorem encNNN_toNat (m : Word) (c : Nat) (hm : m.toNat = 4096 * c) (nnn : Addr12) :
    (encNNN m nnn).toNat = 4096 * c + nnn.toNat := by
  have hn := nnn.isLt
  have h1 := Nat.two_pow_add_eq_or_of_lt (i := 12) (b := nnn.toNat) (by omega) c
  have h4 : (BitVec.zeroExtend 16 nnn).toNat = nnn.toNat := by
    simp only [BitVec.truncate_eq_setWidth, BitVec.toNat_setWidth]; omega
  rw [encNNN, BitVec.toNat_or, hm, h4, show 4096 = 2 ^ 12 from rfl, ← h1]

/-- A sub-opcode nibble of format XY is its `n` field. -/
theorem encXYN_subop (m s : Word) (n : BitVec 4) (x y : Reg) (h : s = m ||| n.zeroExtend 16) :
    encXYN s x y 0#4 = encXYN m x y n := by
  subst h
  simp only [encXYN, show (0#4).zeroExtend 16 = 0#16 from rfl, BitVec.or_zero]
  ac_rfl

/-- A sub-opcode byte of format X is the `nn` field of format XNN. -/
theorem encX_subop (m s : Word) (nn : Byte) (x : Reg) (h : s = m ||| nn.zeroExtend 16) : encX s x = encXNN m x nn := by
  subst h
  simp only [encX, encXNN]
  ac_rfl

end Sys2Proof
end

