-- ==== Sys2Proof/Laws/Display.lean ====
section
/-!
SUPPORT. The framebuffer and the blitter, pixel by pixel: what a write, a plot, a sprite byte and a whole sprite do
to each pixel and to the collision flag. The pixels of one sprite are pairwise distinct (R195), so a pixel is toggled
exactly when some 1 bit lands on it.
-/
namespace Sys2Proof.Machine

theorem pixel_ext {f g : Framebuffer} (h : ∀ row col, Framebuffer.pixel f row col = Framebuffer.pixel g row col) :
    f = g := by
  apply Vector.ext
  intro r hr
  apply Vector.ext
  intro c hc
  exact h ⟨r, hr⟩ ⟨c, hc⟩

theorem pixel_setPixel (f : Framebuffer) (row r : Fin Config.height) (col c : Fin Config.width) (b : Bool) :
    Framebuffer.pixel (Framebuffer.setPixel f row col b) r c =
      if r = row ∧ c = col then b else Framebuffer.pixel f r c := by
  unfold Framebuffer.pixel Framebuffer.setPixel
  by_cases hr : r = row
  · subst hr
    by_cases hc : c = col
    · subst hc; simp
    · have : col.val ≠ c.val := fun e => hc (Fin.ext e.symm)
      simp [hc, Vector.getElem_set_ne, this]
  · have : row.val ≠ r.val := fun e => hr (Fin.ext e.symm)
    simp [hr, Vector.getElem_set_ne, this]

@[simp] theorem pixel_clear (r : Fin Config.height) (c : Fin Config.width) :
    Framebuffer.pixel Framebuffer.clear r c = false := by
  simp [Framebuffer.pixel, Framebuffer.clear]

theorem pixel_plot (row r : Fin Config.height) (col c : Fin Config.width) (bit : Bool) (d : Framebuffer × Bool) :
    Framebuffer.pixel (plot row col bit d).1 r c =
      if r = row ∧ c = col then (Framebuffer.pixel d.1 row col ^^ bit) else Framebuffer.pixel d.1 r c :=
  pixel_setPixel _ _ _ _ _ _

theorem spriteCol_inj {vx : Byte} {c c' : Nat} (hc : c < 8) (hc' : c' < 8) (h : spriteCol vx c = spriteCol vx c') :
    c = c' := by
  have := congrArg Fin.val h
  simp only [spriteCol, Fin.val_ofNat, Config.width] at this
  omega

theorem spriteRow_inj {vy : Byte} {r r' : Nat} (hr : r < 32) (hr' : r' < 32) (h : spriteRow vy r = spriteRow vy r') :
    r = r' := by
  have := congrArg Fin.val h
  simp only [spriteRow, Fin.val_ofNat, Config.height] at this
  omega

/-- What drawing `k` columns of a sprite byte does to each pixel and to the collision flag. -/
theorem drawBits_spec (vx : Byte) (row : Fin Config.height) (b : Byte) (k : Nat) (hk : k ≤ 8)
    (d : Framebuffer × Bool) :
    (∀ r c, Framebuffer.pixel (drawBits vx row b k d).1 r c ≠ Framebuffer.pixel d.1 r c ↔
      r = row ∧ ∃ j, j < k ∧ spriteCol vx j = c ∧ spriteBit b j = true) ∧
    ((drawBits vx row b k d).2 = true ↔
      d.2 = true ∨ ∃ j, j < k ∧ spriteBit b j = true ∧ Framebuffer.pixel d.1 row (spriteCol vx j) = true) := by
  induction k with
  | zero => simp [drawBits]
  | succ k ih =>
    obtain ⟨ihp, ihf⟩ := ih (by omega)
    have hfresh : Framebuffer.pixel (drawBits vx row b k d).1 row (spriteCol vx k) =
        Framebuffer.pixel d.1 row (spriteCol vx k) := by
      by_contra hne
      obtain ⟨-, j, hj, he, -⟩ := (ihp _ _).1 hne
      exact absurd (spriteCol_inj (by omega) (by omega) he) (by omega)
    constructor
    · intro r c
      rw [drawBits, pixel_plot]
      by_cases hrc : r = row ∧ c = spriteCol vx k
      · obtain ⟨rfl, rfl⟩ := hrc
        rw [if_pos ⟨rfl, rfl⟩, hfresh]
        constructor
        · intro h
          refine ⟨rfl, k, by omega, rfl, ?_⟩
          by_contra hb
          rw [Bool.not_eq_true] at hb
          exact h (by rw [hb, Bool.xor_false])
        · rintro ⟨-, j, hj, he, hb⟩
          obtain rfl := spriteCol_inj (by omega) (by omega) he
          simp [hb]
      · rw [if_neg hrc, ihp]
        constructor
        · rintro ⟨rfl, j, hj, he, hb⟩
          exact ⟨rfl, j, by omega, he, hb⟩
        · rintro ⟨rfl, j, hj, he, hb⟩
          refine ⟨rfl, j, ?_, he, hb⟩
          rcases Nat.lt_succ_iff_lt_or_eq.1 hj with h | rfl
          · exact h
          · exact absurd ⟨rfl, he.symm⟩ hrc
    · simp only [drawBits, plot, Bool.or_eq_true, Bool.and_eq_true, hfresh, ihf]
      constructor
      · rintro ((h | ⟨j, hj, hb, hp⟩) | ⟨hp, hb⟩)
        · exact .inl h
        · exact .inr ⟨j, by omega, hb, hp⟩
        · exact .inr ⟨k, by omega, hb, hp⟩
      · rintro (h | ⟨j, hj, hb, hp⟩)
        · exact .inl (.inl h)
        · rcases Nat.lt_succ_iff_lt_or_eq.1 hj with h | rfl
          · exact .inl (.inr ⟨j, h, hb, hp⟩)
          · exact .inr ⟨hp, hb⟩

/-- What drawing sprite rows `k`, `k + 1`, … does to each pixel and to the collision flag. -/
theorem drawRows_spec (vx vy : Byte) (bs : List Byte) (k : Nat) (hk : k + bs.length ≤ 32) (d : Framebuffer × Bool) :
    (∀ r c, Framebuffer.pixel (drawRows vx vy k bs d).1 r c ≠ Framebuffer.pixel d.1 r c ↔
      ∃ i j, i < bs.length ∧ j < 8 ∧ spriteRow vy (k + i) = r ∧ spriteCol vx j = c ∧
        spriteBit (bs.getD i 0#8) j = true) ∧
    ((drawRows vx vy k bs d).2 = true ↔
      d.2 = true ∨ ∃ i j, i < bs.length ∧ j < 8 ∧ spriteBit (bs.getD i 0#8) j = true ∧
        Framebuffer.pixel d.1 (spriteRow vy (k + i)) (spriteCol vx j) = true) := by
  induction bs generalizing k d with
  | nil => simp [drawRows]
  | cons b bs ih =>
    simp only [List.length_cons] at hk ⊢
    obtain ⟨hp, hf⟩ := drawBits_spec vx (spriteRow vy k) b 8 (Nat.le_refl 8) d
    obtain ⟨ihp, ihf⟩ := ih (k + 1) (by omega) (drawBits vx (spriteRow vy k) b 8 d)
    have hrow : ∀ i, i < bs.length → spriteRow vy (k + 1 + i) ≠ spriteRow vy k := fun i hi he =>
      absurd (spriteRow_inj (by omega) (by omega) he) (by omega)
    have hkeep : ∀ i, i < bs.length → ∀ c, Framebuffer.pixel (drawBits vx (spriteRow vy k) b 8 d).1
        (spriteRow vy (k + 1 + i)) c = Framebuffer.pixel d.1 (spriteRow vy (k + 1 + i)) c := fun i hi c => by
      by_contra hne
      exact hrow i hi ((hp _ _).1 hne).1
    have hk1 : ∀ i, k + 1 + i = k + (i + 1) := fun i => by omega
    constructor
    · intro r c
      rw [drawRows]
      by_cases hr : r = spriteRow vy k
      · subst hr
        have hlate : Framebuffer.pixel (drawRows vx vy (k + 1) bs (drawBits vx (spriteRow vy k) b 8 d)).1
            (spriteRow vy k) c = Framebuffer.pixel (drawBits vx (spriteRow vy k) b 8 d).1 (spriteRow vy k) c := by
          by_contra hne
          obtain ⟨i, j, hi, -, he, -⟩ := (ihp _ _).1 hne
          exact hrow i hi he
        rw [hlate, hp]
        constructor
        · rintro ⟨-, j, hj, he, hb⟩
          exact ⟨0, j, by omega, hj, rfl, he, by simpa using hb⟩
        · rintro ⟨i, j, hi, hj, he, hc, hb⟩
          cases i with
          | zero => exact ⟨rfl, j, hj, hc, by simpa using hb⟩
          | succ i => exact absurd (by rw [hk1]; exact he) (hrow i (by omega))
      · have hearly : Framebuffer.pixel (drawBits vx (spriteRow vy k) b 8 d).1 r c = Framebuffer.pixel d.1 r c := by
          by_contra hne
          exact hr ((hp _ _).1 hne).1
        rw [← hearly, ihp]
        constructor
        · rintro ⟨i, j, hi, hj, he, hc, hb⟩
          exact ⟨i + 1, j, by omega, hj, by rw [← hk1]; exact he, hc, by simpa using hb⟩
        · rintro ⟨i, j, hi, hj, he, hc, hb⟩
          cases i with
          | zero => exact absurd he.symm hr
          | succ i => exact ⟨i, j, by omega, hj, by rw [hk1]; exact he, hc, by simpa using hb⟩
    · rw [drawRows, ihf, hf]
      constructor
      · rintro ((h | ⟨j, hj, hb, hpx⟩) | ⟨i, j, hi, hj, hb, hpx⟩)
        · exact .inl h
        · exact .inr ⟨0, j, by omega, hj, by simpa using hb, hpx⟩
        · rw [hkeep i hi] at hpx
          exact .inr ⟨i + 1, j, by omega, hj, by simpa using hb, by rw [← hk1]; exact hpx⟩
      · rintro (h | ⟨i, j, hi, hj, hb, hpx⟩)
        · exact .inl (.inl h)
        · cases i with
          | zero => exact .inl (.inr ⟨j, hj, by simpa using hb, hpx⟩)
          | succ i =>
            refine .inr ⟨i, j, by omega, hj, by simpa using hb, ?_⟩
            rw [hkeep i (by omega), hk1]
            exact hpx

end Sys2Proof.Machine
end

