-- ==== Sys2Proof/Laws/Memory.lean ====
section
/-!
SUPPORT. What the memory operations do, said once: a read after a write, the canonical form kept, and for the
transfers of several bytes when they succeed, what they then read or write, and what they report otherwise.
-/
namespace Sys2Proof.Machine

theorem read_put (m : Memory) (a c : Nat) (b : Byte) :
    Memory.read (Memory.put m a b) c = if c = a then b else Memory.read m c := by
  simp only [eq_comm (a := c)]
  induction m with
  | nil => simp [Memory.put, Memory.read]
  | cons d m ih =>
    simp only [Memory.put]
    split
    · simp [Memory.read]
    · split
      · rename_i h2
        by_cases h : a = c <;> simp [Memory.read, h, ← h2]
      · rename_i h2
        by_cases h : d.1 = c
        · simp [Memory.read, h, show a ≠ c from fun e => h2 (by rw [h, e])]
        · simp [Memory.read, h, ih]

theorem read_drop (m : Memory) (a c : Nat) :
    Memory.read (Memory.drop m a) c = if c = a then resetByte a else Memory.read m c := by
  induction m with
  | nil => by_cases h : c = a <;> simp [Memory.drop, Memory.read, h]
  | cons d m ih =>
    simp only [Memory.drop] at ih ⊢
    by_cases hd : d.1 = a
    · rw [List.filter_cons_of_neg (by simp [hd]), ih]
      by_cases h : c = a
      · simp [h]
      · simp [Memory.read, h, show d.1 ≠ c from fun e => h (by rw [← e, hd])]
    · rw [List.filter_cons_of_pos (by simp [hd])]
      by_cases h : d.1 = c
      · simp [Memory.read, h, show c ≠ a from fun e => hd (by rw [h, e])]
      · simp [Memory.read, h, ih]

/-- A read after a write: the byte written, or the old byte of another address (R62, R70). -/
theorem read_write (m : Memory) (a c : Nat) (b : Byte) :
    Memory.read (Memory.write m a b) c = if c = a then b else Memory.read m c := by
  unfold Memory.write
  split
  · rename_i h; rw [read_drop, h]
  · exact read_put m a c b

theorem mem_put {m : Memory} {a : Nat} {b : Byte} {c : Host.Cell} (h : c ∈ Memory.put m a b) :
    c = (a, b) ∨ c ∈ m := by
  induction m with
  | nil => simpa [Memory.put] using h
  | cons d m ih =>
    simp only [Memory.put] at h
    split at h
    · simpa using h
    · split at h
      · simp only [List.mem_cons] at h ⊢; tauto
      · simp only [List.mem_cons] at h ⊢; rcases h with h | h
        · exact .inr (.inl h)
        · rcases ih h with h | h <;> tauto

theorem pairwise_put {m : Memory} (a : Nat) (b : Byte) (h : m.Pairwise (fun c d => c.1 < d.1)) :
    (Memory.put m a b).Pairwise (fun c d => c.1 < d.1) := by
  induction m with
  | nil => simp [Memory.put]
  | cons d m ih =>
    obtain ⟨h1, h2⟩ := List.pairwise_cons.1 h
    simp only [Memory.put]
    split
    · rename_i ha
      refine List.pairwise_cons.2 ⟨fun e he => ?_, h⟩
      rcases List.mem_cons.1 he with rfl | he
      · exact ha
      · exact Nat.lt_trans ha (h1 e he)
    · split
      · rename_i ha
        exact List.pairwise_cons.2 ⟨fun e he => by simpa [ha] using h1 e he, h2⟩
      · refine List.pairwise_cons.2 ⟨fun e he => ?_, ih h2⟩
        rcases mem_put he with rfl | he
        · simp only; omega
        · exact h1 e he

/-- A write inside the address space keeps the canonical form. -/
theorem wf_write {m : Memory} {a : Nat} (b : Byte) (h : Memory.wf m) (ha : a < Config.memSize) :
    Memory.wf (Memory.write m a b) := by
  unfold Memory.write
  split
  · exact ⟨h.1.filter _, fun c hc => h.2 c (List.mem_filter.1 hc).1⟩
  · rename_i hb
    refine ⟨pairwise_put a b h.1, fun c hc => ?_⟩
    rcases mem_put hc with rfl | hc
    · exact ⟨ha, hb⟩
    · exact h.2 c hc

/-! ## Transfers of several bytes -/

/-- A transfer of `n` bytes from address `a` stays inside the address space. -/
abbrev fits (a n : Nat) : Prop := n = 0 ∨ a + n ≤ Config.memSize

/-- A read of several bytes: the bytes, or the first address out of bounds. -/
theorem readBytes_eq (m : Memory) (a n : Nat) :
    readBytes m a n =
      if fits a n then .ok ((List.range n).map (fun k => Memory.read m (a + k))) else .error (max a Config.memSize) := by
  induction n generalizing a with
  | zero => simp [readBytes]
  | succ n ih =>
    simp only [readBytes, memRead, ih, fits]
    by_cases ha : a < Config.memSize
    · simp only [if_pos ha]
      by_cases hf : n = 0 ∨ a + 1 + n ≤ Config.memSize
      · rw [if_pos hf, if_pos (.inr (by omega)), List.range_succ_eq_map]
        simp only [List.map_cons, List.map_map, Nat.add_zero]
        congr 3
        funext k
        simp only [Function.comp, Nat.succ_eq_add_one]
        congr 1
        omega
      · rw [if_neg hf, if_neg (by omega)]
        simp only [Except.error.injEq]
        omega
    · simp only [if_neg ha]
      rw [if_neg (by omega)]
      simp only [Except.error.injEq]
      omega

theorem readBytes_ok (m : Memory) {a n : Nat} (h : n = 0 ∨ a + n ≤ 4096) :
    readBytes m a n = .ok ((List.range n).map (fun k => Memory.read m (a + k))) := by
  rw [readBytes_eq]
  exact if_pos h

theorem readBytes_error (m : Memory) {a n : Nat} (h : ¬ (n = 0 ∨ a + n ≤ 4096)) :
    readBytes m a n = .error (max a 4096) := by
  rw [readBytes_eq]
  exact if_neg h

/-- When a write of several bytes succeeds, and what it reports when it does not. -/
theorem writeBytes_ok_iff (m : Memory) (a : Nat) (bs : List Byte) :
    (fits a bs.length → ∃ m', writeBytes m a bs = .ok m') ∧
    (¬ fits a bs.length → writeBytes m a bs = .error (max a Config.memSize)) := by
  induction bs generalizing m a with
  | nil => simp [writeBytes]
  | cons b bs ih =>
    simp only [writeBytes, memWrite, fits, List.length_cons] at ih ⊢
    by_cases ha : a < Config.memSize
    · simp only [if_pos ha]
      refine ⟨fun h => (ih _ _).1 (by omega), fun h => ?_⟩
      rw [(ih _ _).2 (by omega)]
      simp only [Except.error.injEq]
      omega
    · simp only [if_neg ha]
      refine ⟨fun h => by omega, fun _ => ?_⟩
      simp only [Except.error.injEq]
      omega

theorem writeBytes_ok (m : Memory) {a : Nat} {bs : List Byte} (h : bs.length = 0 ∨ a + bs.length ≤ 4096) :
    ∃ m', writeBytes m a bs = .ok m' :=
  (writeBytes_ok_iff m a bs).1 h

theorem writeBytes_error (m : Memory) {a : Nat} {bs : List Byte} (h : ¬ (bs.length = 0 ∨ a + bs.length ≤ 4096)) :
    writeBytes m a bs = .error (max a 4096) :=
  (writeBytes_ok_iff m a bs).2 h

theorem fits_of_writeBytes {m m' : Memory} {a : Nat} {bs : List Byte} (h : writeBytes m a bs = .ok m') :
    fits a bs.length := by
  by_contra hf
  rw [(writeBytes_ok_iff m a bs).2 hf] at h
  cases h

/-- A write of several bytes puts each at its address and changes no other byte. -/
theorem read_writeBytes {m m' : Memory} {a : Nat} {bs : List Byte} (h : writeBytes m a bs = .ok m') (c : Nat) :
    Memory.read m' c = if a ≤ c then bs.getD (c - a) (Memory.read m c) else Memory.read m c := by
  induction bs generalizing m a with
  | nil =>
    simp only [writeBytes, Except.ok.injEq] at h
    simp [h]
  | cons b bs ih =>
    simp only [writeBytes, memWrite] at h
    by_cases ha : a < Config.memSize
    · simp only [if_pos ha] at h
      rw [ih h, read_write]
      by_cases hc : c = a
      · subst hc
        simp
      · simp only [if_neg hc]
        by_cases hle : a ≤ c
        · have : c - a = c - (a + 1) + 1 := by omega
          rw [if_pos hle, if_pos (by omega), this]
          rfl
        · rw [if_neg hle, if_neg (by omega)]
    · simp [if_neg ha] at h

/-- A write of several bytes keeps the canonical form. -/
theorem wf_writeBytes {m m' : Memory} {a : Nat} {bs : List Byte} (h : writeBytes m a bs = .ok m')
    (hm : Memory.wf m) : Memory.wf m' := by
  induction bs generalizing m a with
  | nil =>
    simp only [writeBytes, Except.ok.injEq] at h
    exact h ▸ hm
  | cons b bs ih =>
    simp only [writeBytes, memWrite] at h
    by_cases ha : a < Config.memSize
    · simp only [if_pos ha] at h
      exact ih h (wf_write b hm ha)
    · simp [if_neg ha] at h

/-! ## The loader -/

/-- The loader puts each byte at its address and changes no other byte (R272). -/
theorem read_loadImage (bs : List Byte) (m : Memory) (a c : Nat) :
    Memory.read (loadImage m a bs) c = if a ≤ c then bs.getD (c - a) (Memory.read m c) else Memory.read m c := by
  induction bs generalizing m a with
  | nil => simp [loadImage]
  | cons b bs ih =>
    rw [loadImage, ih, read_write]
    by_cases hc : c = a
    · subst hc
      simp
    · simp only [if_neg hc]
      by_cases hle : a ≤ c
      · have : c - a = c - (a + 1) + 1 := by omega
        rw [if_pos hle, if_pos (by omega), this]
        rfl
      · rw [if_neg hle, if_neg (by omega)]

/-- The loader keeps the canonical form when the image fits. -/
theorem wf_loadImage (bs : List Byte) (m : Memory) (a : Nat) (h : a + bs.length ≤ Config.memSize) (hm : Memory.wf m) :
    Memory.wf (loadImage m a bs) := by
  induction bs generalizing m a with
  | nil => exact hm
  | cons b bs ih =>
    simp only [List.length_cons] at h
    exact ih _ _ (by omega) (wf_write b hm (by omega))

end Sys2Proof.Machine
end

