-- ==== Sys2Proof/Laws/State.lean ====
section
/-!
SUPPORT. One lemma per field per update of the state, all true by rfl, and the register reads after each update: no
later proof unfolds a record update.
-/
namespace Sys2Proof.Machine

/-! ### State.setPc -/

@[simp] theorem setPc_v (s : State) (a : Word) : (State.setPc s a).v = s.v := rfl
@[simp] theorem setPc_pc (s : State) (a : Word) : (State.setPc s a).pc = a := rfl
@[simp] theorem setPc_i (s : State) (a : Word) : (State.setPc s a).i = s.i := rfl
@[simp] theorem setPc_stack (s : State) (a : Word) : (State.setPc s a).stack = s.stack := rfl
@[simp] theorem setPc_dt (s : State) (a : Word) : (State.setPc s a).dt = s.dt := rfl
@[simp] theorem setPc_st (s : State) (a : Word) : (State.setPc s a).st = s.st := rfl
@[simp] theorem setPc_mem (s : State) (a : Word) : (State.setPc s a).mem = s.mem := rfl
@[simp] theorem setPc_fb (s : State) (a : Word) : (State.setPc s a).fb = s.fb := rfl
@[simp] theorem setPc_upd (s : State) (a : Word) : (State.setPc s a).upd = s.upd := rfl
@[simp] theorem setPc_keys (s : State) (a : Word) : (State.setPc s a).keys = s.keys := rfl
@[simp] theorem setPc_keysPrev (s : State) (a : Word) : (State.setPc s a).keysPrev = s.keysPrev := rfl
@[simp] theorem setPc_q (s : State) (a : Word) : (State.setPc s a).q = s.q := rfl
@[simp] theorem setPc_fault (s : State) (a : Word) : (State.setPc s a).fault = s.fault := rfl
@[simp] theorem setPc_draws (s : State) (a : Word) : (State.setPc s a).draws = s.draws := rfl
@[simp] theorem readV_setPc (s : State) (a : Word) (r : Reg) : readV (State.setPc s a) r = readV s r := rfl

/-! ### State.setI -/

@[simp] theorem setI_v (s : State) (a : Word) : (State.setI s a).v = s.v := rfl
@[simp] theorem setI_pc (s : State) (a : Word) : (State.setI s a).pc = s.pc := rfl
@[simp] theorem setI_i (s : State) (a : Word) : (State.setI s a).i = a := rfl
@[simp] theorem setI_stack (s : State) (a : Word) : (State.setI s a).stack = s.stack := rfl
@[simp] theorem setI_dt (s : State) (a : Word) : (State.setI s a).dt = s.dt := rfl
@[simp] theorem setI_st (s : State) (a : Word) : (State.setI s a).st = s.st := rfl
@[simp] theorem setI_mem (s : State) (a : Word) : (State.setI s a).mem = s.mem := rfl
@[simp] theorem setI_fb (s : State) (a : Word) : (State.setI s a).fb = s.fb := rfl
@[simp] theorem setI_upd (s : State) (a : Word) : (State.setI s a).upd = s.upd := rfl
@[simp] theorem setI_keys (s : State) (a : Word) : (State.setI s a).keys = s.keys := rfl
@[simp] theorem setI_keysPrev (s : State) (a : Word) : (State.setI s a).keysPrev = s.keysPrev := rfl
@[simp] theorem setI_q (s : State) (a : Word) : (State.setI s a).q = s.q := rfl
@[simp] theorem setI_fault (s : State) (a : Word) : (State.setI s a).fault = s.fault := rfl
@[simp] theorem setI_draws (s : State) (a : Word) : (State.setI s a).draws = s.draws := rfl
@[simp] theorem readV_setI (s : State) (a : Word) (r : Reg) : readV (State.setI s a) r = readV s r := rfl

/-! ### State.setStack -/

@[simp] theorem setStack_v (s : State) (l : List Word) : (State.setStack s l).v = s.v := rfl
@[simp] theorem setStack_pc (s : State) (l : List Word) : (State.setStack s l).pc = s.pc := rfl
@[simp] theorem setStack_i (s : State) (l : List Word) : (State.setStack s l).i = s.i := rfl
@[simp] theorem setStack_stack (s : State) (l : List Word) : (State.setStack s l).stack = l := rfl
@[simp] theorem setStack_dt (s : State) (l : List Word) : (State.setStack s l).dt = s.dt := rfl
@[simp] theorem setStack_st (s : State) (l : List Word) : (State.setStack s l).st = s.st := rfl
@[simp] theorem setStack_mem (s : State) (l : List Word) : (State.setStack s l).mem = s.mem := rfl
@[simp] theorem setStack_fb (s : State) (l : List Word) : (State.setStack s l).fb = s.fb := rfl
@[simp] theorem setStack_upd (s : State) (l : List Word) : (State.setStack s l).upd = s.upd := rfl
@[simp] theorem setStack_keys (s : State) (l : List Word) : (State.setStack s l).keys = s.keys := rfl
@[simp] theorem setStack_keysPrev (s : State) (l : List Word) : (State.setStack s l).keysPrev = s.keysPrev := rfl
@[simp] theorem setStack_q (s : State) (l : List Word) : (State.setStack s l).q = s.q := rfl
@[simp] theorem setStack_fault (s : State) (l : List Word) : (State.setStack s l).fault = s.fault := rfl
@[simp] theorem setStack_draws (s : State) (l : List Word) : (State.setStack s l).draws = s.draws := rfl
@[simp] theorem readV_setStack (s : State) (l : List Word) (r : Reg) : readV (State.setStack s l) r = readV s r := rfl

/-! ### State.setDt -/

@[simp] theorem setDt_v (s : State) (b : Byte) : (State.setDt s b).v = s.v := rfl
@[simp] theorem setDt_pc (s : State) (b : Byte) : (State.setDt s b).pc = s.pc := rfl
@[simp] theorem setDt_i (s : State) (b : Byte) : (State.setDt s b).i = s.i := rfl
@[simp] theorem setDt_stack (s : State) (b : Byte) : (State.setDt s b).stack = s.stack := rfl
@[simp] theorem setDt_dt (s : State) (b : Byte) : (State.setDt s b).dt = b := rfl
@[simp] theorem setDt_st (s : State) (b : Byte) : (State.setDt s b).st = s.st := rfl
@[simp] theorem setDt_mem (s : State) (b : Byte) : (State.setDt s b).mem = s.mem := rfl
@[simp] theorem setDt_fb (s : State) (b : Byte) : (State.setDt s b).fb = s.fb := rfl
@[simp] theorem setDt_upd (s : State) (b : Byte) : (State.setDt s b).upd = s.upd := rfl
@[simp] theorem setDt_keys (s : State) (b : Byte) : (State.setDt s b).keys = s.keys := rfl
@[simp] theorem setDt_keysPrev (s : State) (b : Byte) : (State.setDt s b).keysPrev = s.keysPrev := rfl
@[simp] theorem setDt_q (s : State) (b : Byte) : (State.setDt s b).q = s.q := rfl
@[simp] theorem setDt_fault (s : State) (b : Byte) : (State.setDt s b).fault = s.fault := rfl
@[simp] theorem setDt_draws (s : State) (b : Byte) : (State.setDt s b).draws = s.draws := rfl
@[simp] theorem readV_setDt (s : State) (b : Byte) (r : Reg) : readV (State.setDt s b) r = readV s r := rfl

/-! ### State.setSt -/

@[simp] theorem setSt_v (s : State) (b : Byte) : (State.setSt s b).v = s.v := rfl
@[simp] theorem setSt_pc (s : State) (b : Byte) : (State.setSt s b).pc = s.pc := rfl
@[simp] theorem setSt_i (s : State) (b : Byte) : (State.setSt s b).i = s.i := rfl
@[simp] theorem setSt_stack (s : State) (b : Byte) : (State.setSt s b).stack = s.stack := rfl
@[simp] theorem setSt_dt (s : State) (b : Byte) : (State.setSt s b).dt = s.dt := rfl
@[simp] theorem setSt_st (s : State) (b : Byte) : (State.setSt s b).st = b := rfl
@[simp] theorem setSt_mem (s : State) (b : Byte) : (State.setSt s b).mem = s.mem := rfl
@[simp] theorem setSt_fb (s : State) (b : Byte) : (State.setSt s b).fb = s.fb := rfl
@[simp] theorem setSt_upd (s : State) (b : Byte) : (State.setSt s b).upd = s.upd := rfl
@[simp] theorem setSt_keys (s : State) (b : Byte) : (State.setSt s b).keys = s.keys := rfl
@[simp] theorem setSt_keysPrev (s : State) (b : Byte) : (State.setSt s b).keysPrev = s.keysPrev := rfl
@[simp] theorem setSt_q (s : State) (b : Byte) : (State.setSt s b).q = s.q := rfl
@[simp] theorem setSt_fault (s : State) (b : Byte) : (State.setSt s b).fault = s.fault := rfl
@[simp] theorem setSt_draws (s : State) (b : Byte) : (State.setSt s b).draws = s.draws := rfl
@[simp] theorem readV_setSt (s : State) (b : Byte) (r : Reg) : readV (State.setSt s b) r = readV s r := rfl

/-! ### State.setMem -/

@[simp] theorem setMem_v (s : State) (m : Memory) : (State.setMem s m).v = s.v := rfl
@[simp] theorem setMem_pc (s : State) (m : Memory) : (State.setMem s m).pc = s.pc := rfl
@[simp] theorem setMem_i (s : State) (m : Memory) : (State.setMem s m).i = s.i := rfl
@[simp] theorem setMem_stack (s : State) (m : Memory) : (State.setMem s m).stack = s.stack := rfl
@[simp] theorem setMem_dt (s : State) (m : Memory) : (State.setMem s m).dt = s.dt := rfl
@[simp] theorem setMem_st (s : State) (m : Memory) : (State.setMem s m).st = s.st := rfl
@[simp] theorem setMem_mem (s : State) (m : Memory) : (State.setMem s m).mem = m := rfl
@[simp] theorem setMem_fb (s : State) (m : Memory) : (State.setMem s m).fb = s.fb := rfl
@[simp] theorem setMem_upd (s : State) (m : Memory) : (State.setMem s m).upd = s.upd := rfl
@[simp] theorem setMem_keys (s : State) (m : Memory) : (State.setMem s m).keys = s.keys := rfl
@[simp] theorem setMem_keysPrev (s : State) (m : Memory) : (State.setMem s m).keysPrev = s.keysPrev := rfl
@[simp] theorem setMem_q (s : State) (m : Memory) : (State.setMem s m).q = s.q := rfl
@[simp] theorem setMem_fault (s : State) (m : Memory) : (State.setMem s m).fault = s.fault := rfl
@[simp] theorem setMem_draws (s : State) (m : Memory) : (State.setMem s m).draws = s.draws := rfl
@[simp] theorem readV_setMem (s : State) (m : Memory) (r : Reg) : readV (State.setMem s m) r = readV s r := rfl

/-! ### State.setFb -/

@[simp] theorem setFb_v (s : State) (f : Framebuffer) : (State.setFb s f).v = s.v := rfl
@[simp] theorem setFb_pc (s : State) (f : Framebuffer) : (State.setFb s f).pc = s.pc := rfl
@[simp] theorem setFb_i (s : State) (f : Framebuffer) : (State.setFb s f).i = s.i := rfl
@[simp] theorem setFb_stack (s : State) (f : Framebuffer) : (State.setFb s f).stack = s.stack := rfl
@[simp] theorem setFb_dt (s : State) (f : Framebuffer) : (State.setFb s f).dt = s.dt := rfl
@[simp] theorem setFb_st (s : State) (f : Framebuffer) : (State.setFb s f).st = s.st := rfl
@[simp] theorem setFb_mem (s : State) (f : Framebuffer) : (State.setFb s f).mem = s.mem := rfl
@[simp] theorem setFb_fb (s : State) (f : Framebuffer) : (State.setFb s f).fb = f := rfl
@[simp] theorem setFb_upd (s : State) (f : Framebuffer) : (State.setFb s f).upd = true := rfl
@[simp] theorem setFb_keys (s : State) (f : Framebuffer) : (State.setFb s f).keys = s.keys := rfl
@[simp] theorem setFb_keysPrev (s : State) (f : Framebuffer) : (State.setFb s f).keysPrev = s.keysPrev := rfl
@[simp] theorem setFb_q (s : State) (f : Framebuffer) : (State.setFb s f).q = s.q := rfl
@[simp] theorem setFb_fault (s : State) (f : Framebuffer) : (State.setFb s f).fault = s.fault := rfl
@[simp] theorem setFb_draws (s : State) (f : Framebuffer) : (State.setFb s f).draws = s.draws := rfl
@[simp] theorem readV_setFb (s : State) (f : Framebuffer) (r : Reg) : readV (State.setFb s f) r = readV s r := rfl

/-! ### writeV -/

@[simp] theorem writeV_v (s : State) (x : Reg) (b : Byte) : (writeV s x b).v = s.v.set x.val b x.isLt := rfl
@[simp] theorem writeV_pc (s : State) (x : Reg) (b : Byte) : (writeV s x b).pc = s.pc := rfl
@[simp] theorem writeV_i (s : State) (x : Reg) (b : Byte) : (writeV s x b).i = s.i := rfl
@[simp] theorem writeV_stack (s : State) (x : Reg) (b : Byte) : (writeV s x b).stack = s.stack := rfl
@[simp] theorem writeV_dt (s : State) (x : Reg) (b : Byte) : (writeV s x b).dt = s.dt := rfl
@[simp] theorem writeV_st (s : State) (x : Reg) (b : Byte) : (writeV s x b).st = s.st := rfl
@[simp] theorem writeV_mem (s : State) (x : Reg) (b : Byte) : (writeV s x b).mem = s.mem := rfl
@[simp] theorem writeV_fb (s : State) (x : Reg) (b : Byte) : (writeV s x b).fb = s.fb := rfl
@[simp] theorem writeV_upd (s : State) (x : Reg) (b : Byte) : (writeV s x b).upd = s.upd := rfl
@[simp] theorem writeV_keys (s : State) (x : Reg) (b : Byte) : (writeV s x b).keys = s.keys := rfl
@[simp] theorem writeV_keysPrev (s : State) (x : Reg) (b : Byte) : (writeV s x b).keysPrev = s.keysPrev := rfl
@[simp] theorem writeV_q (s : State) (x : Reg) (b : Byte) : (writeV s x b).q = s.q := rfl
@[simp] theorem writeV_fault (s : State) (x : Reg) (b : Byte) : (writeV s x b).fault = s.fault := rfl
@[simp] theorem writeV_draws (s : State) (x : Reg) (b : Byte) : (writeV s x b).draws = s.draws := rfl

/-! ### State.latchFault -/

@[simp] theorem latchFault_v (s : State) (f : Fault) : (State.latchFault s f).v = s.v := rfl
@[simp] theorem latchFault_pc (s : State) (f : Fault) : (State.latchFault s f).pc = s.pc := rfl
@[simp] theorem latchFault_i (s : State) (f : Fault) : (State.latchFault s f).i = s.i := rfl
@[simp] theorem latchFault_stack (s : State) (f : Fault) : (State.latchFault s f).stack = s.stack := rfl
@[simp] theorem latchFault_dt (s : State) (f : Fault) : (State.latchFault s f).dt = s.dt := rfl
@[simp] theorem latchFault_st (s : State) (f : Fault) : (State.latchFault s f).st = s.st := rfl
@[simp] theorem latchFault_mem (s : State) (f : Fault) : (State.latchFault s f).mem = s.mem := rfl
@[simp] theorem latchFault_fb (s : State) (f : Fault) : (State.latchFault s f).fb = s.fb := rfl
@[simp] theorem latchFault_upd (s : State) (f : Fault) : (State.latchFault s f).upd = s.upd := rfl
@[simp] theorem latchFault_keys (s : State) (f : Fault) : (State.latchFault s f).keys = s.keys := rfl
@[simp] theorem latchFault_keysPrev (s : State) (f : Fault) : (State.latchFault s f).keysPrev = s.keysPrev := rfl
@[simp] theorem latchFault_q (s : State) (f : Fault) : (State.latchFault s f).q = s.q := rfl
@[simp] theorem latchFault_fault (s : State) (f : Fault) : (State.latchFault s f).fault = some f := rfl
@[simp] theorem latchFault_draws (s : State) (f : Fault) : (State.latchFault s f).draws = s.draws := rfl
@[simp] theorem readV_latchFault (s : State) (f : Fault) (r : Reg) : readV (State.latchFault s f) r = readV s r := rfl

/-! ### Registers -/

/-- A read after a register write: the value written, or the old value of another register (R21). -/
@[simp] theorem readV_writeV (s : State) (x : Reg) (b : Byte) (r : Reg) :
    readV (writeV s x b) r = if r = x then b else readV s r := by
  by_cases h : r = x
  · subst h; simp [readV]
  · have : x.val ≠ r.val := fun e => h (Fin.ext e.symm)
    simp [readV, h, Vector.getElem_set_ne, this]

/-! ### The draw of a random byte -/

@[simp] theorem drawByte_v (s : State) : (drawByte s).2.v = s.v := rfl
@[simp] theorem drawByte_pc (s : State) : (drawByte s).2.pc = s.pc := rfl
@[simp] theorem drawByte_i (s : State) : (drawByte s).2.i = s.i := rfl
@[simp] theorem drawByte_stack (s : State) : (drawByte s).2.stack = s.stack := rfl
@[simp] theorem drawByte_dt (s : State) : (drawByte s).2.dt = s.dt := rfl
@[simp] theorem drawByte_st (s : State) : (drawByte s).2.st = s.st := rfl
@[simp] theorem drawByte_mem (s : State) : (drawByte s).2.mem = s.mem := rfl
@[simp] theorem drawByte_fb (s : State) : (drawByte s).2.fb = s.fb := rfl
@[simp] theorem drawByte_upd (s : State) : (drawByte s).2.upd = s.upd := rfl
@[simp] theorem drawByte_keys (s : State) : (drawByte s).2.keys = s.keys := rfl
@[simp] theorem drawByte_keysPrev (s : State) : (drawByte s).2.keysPrev = s.keysPrev := rfl
@[simp] theorem drawByte_q (s : State) : (drawByte s).2.q = s.q := rfl
@[simp] theorem drawByte_fault (s : State) : (drawByte s).2.fault = s.fault := rfl
@[simp] theorem drawByte_draws (s : State) : (drawByte s).2.draws = s.draws + 1 := rfl
@[simp] theorem readV_drawByte (s : State) (r : Reg) : readV (drawByte s).2 r = readV s r := rfl

/-! ### A write of several registers -/

@[simp] theorem writeVs_pc (bs : List Byte) (k : Nat) (s : State) : (writeVs s k bs).pc = s.pc := by
  induction bs generalizing k s with
  | nil => rfl
  | cons b bs ih => simp [writeVs, ih]

@[simp] theorem writeVs_i (bs : List Byte) (k : Nat) (s : State) : (writeVs s k bs).i = s.i := by
  induction bs generalizing k s with
  | nil => rfl
  | cons b bs ih => simp [writeVs, ih]

@[simp] theorem writeVs_stack (bs : List Byte) (k : Nat) (s : State) : (writeVs s k bs).stack = s.stack := by
  induction bs generalizing k s with
  | nil => rfl
  | cons b bs ih => simp [writeVs, ih]

@[simp] theorem writeVs_dt (bs : List Byte) (k : Nat) (s : State) : (writeVs s k bs).dt = s.dt := by
  induction bs generalizing k s with
  | nil => rfl
  | cons b bs ih => simp [writeVs, ih]

@[simp] theorem writeVs_st (bs : List Byte) (k : Nat) (s : State) : (writeVs s k bs).st = s.st := by
  induction bs generalizing k s with
  | nil => rfl
  | cons b bs ih => simp [writeVs, ih]

@[simp] theorem writeVs_mem (bs : List Byte) (k : Nat) (s : State) : (writeVs s k bs).mem = s.mem := by
  induction bs generalizing k s with
  | nil => rfl
  | cons b bs ih => simp [writeVs, ih]

@[simp] theorem writeVs_fb (bs : List Byte) (k : Nat) (s : State) : (writeVs s k bs).fb = s.fb := by
  induction bs generalizing k s with
  | nil => rfl
  | cons b bs ih => simp [writeVs, ih]

@[simp] theorem writeVs_upd (bs : List Byte) (k : Nat) (s : State) : (writeVs s k bs).upd = s.upd := by
  induction bs generalizing k s with
  | nil => rfl
  | cons b bs ih => simp [writeVs, ih]

@[simp] theorem writeVs_keys (bs : List Byte) (k : Nat) (s : State) : (writeVs s k bs).keys = s.keys := by
  induction bs generalizing k s with
  | nil => rfl
  | cons b bs ih => simp [writeVs, ih]

@[simp] theorem writeVs_keysPrev (bs : List Byte) (k : Nat) (s : State) : (writeVs s k bs).keysPrev = s.keysPrev := by
  induction bs generalizing k s with
  | nil => rfl
  | cons b bs ih => simp [writeVs, ih]

@[simp] theorem writeVs_q (bs : List Byte) (k : Nat) (s : State) : (writeVs s k bs).q = s.q := by
  induction bs generalizing k s with
  | nil => rfl
  | cons b bs ih => simp [writeVs, ih]

@[simp] theorem writeVs_fault (bs : List Byte) (k : Nat) (s : State) : (writeVs s k bs).fault = s.fault := by
  induction bs generalizing k s with
  | nil => rfl
  | cons b bs ih => simp [writeVs, ih]

@[simp] theorem writeVs_draws (bs : List Byte) (k : Nat) (s : State) : (writeVs s k bs).draws = s.draws := by
  induction bs generalizing k s with
  | nil => rfl
  | cons b bs ih => simp [writeVs, ih]

/-- What a write of several registers leaves in each register: the byte of its place in the list, or the old value.
The list must fit below register 16. -/
theorem readV_writeVs (bs : List Byte) (k : Nat) (s : State) (r : Reg) (h : k + bs.length ≤ 16) :
    readV (writeVs s k bs) r = if k ≤ r.val then bs.getD (r.val - k) (readV s r) else readV s r := by
  induction bs generalizing k s with
  | nil => simp [writeVs]
  | cons b bs ih =>
    simp only [List.length_cons] at h
    rw [writeVs, ih (k + 1) _ (by omega)]
    have hk : k % 16 = k := Nat.mod_eq_of_lt (by omega)
    by_cases hr : r.val = k
    · have : r = Fin.ofNat 16 k := Fin.ext (by simp [hk, hr])
      simp [this, hk]
    · have hne : r ≠ Fin.ofNat 16 k := fun e => hr (by simp [e, hk])
      simp only [readV_writeV, if_neg hne]
      by_cases hle : k ≤ r.val
      · have : r.val - k = (r.val - (k + 1)) + 1 := by omega
        rw [if_pos hle, if_pos (by omega), this]
        rfl
      · rw [if_neg hle, if_neg (by omega)]

/-! ### Reading several registers -/

@[simp] theorem readVs_length (s : State) (x : Reg) : (readVs s x).length = x.val + 1 := by simp [readVs]

theorem readVs_getElem (s : State) (x k : Reg) (h : k.val < (readVs s x).length) : (readVs s x)[k.val] = readV s k := by
  simp [readVs]

end Sys2Proof.Machine
end

