-- ==== Sys2Proof/Laws/Ops.lean ====
section
/-!
SUPPORT. One lemma per shared operation over registers, the stack, the program counter and the keys, which says all the
operation can do; and the values of the flag computations as arithmetic on unsigned integers (R8).
-/
namespace Sys2Proof.Machine

/-! ## Flags -/

@[simp] theorem flagByte_true : flagByte true = 1#8 := rfl

@[simp] theorem flagByte_false : flagByte false = 0#8 := rfl

theorem flagByte_toNat (c : Bool) : (flagByte c).toNat = if c = true then 1 else 0 := by cases c <;> rfl

theorem flagByte_zero_or_one (c : Bool) : flagByte c = 0#8 ∨ flagByte c = 1#8 := by cases c <;> simp

theorem shiftedOutRight_toNat (b : Byte) : (flagByte (shiftedOutRight b)).toNat = b.toNat % 2 := by
  rw [flagByte_toNat, shiftedOutRight, ← BitVec.testBit_toNat, Nat.testBit_zero]
  split <;> simp_all

theorem shiftedOutLeft_toNat (b : Byte) : (flagByte (shiftedOutLeft b)).toNat = b.toNat / 128 := by
  have hb := b.isLt
  rw [flagByte_toNat, shiftedOutLeft, ← BitVec.testBit_toNat, Nat.testBit_eq_decide_div_mod_eq]
  simp only [decide_eq_true_eq]
  split <;> omega

/-! ## Registers and the flag register -/

/-- The flag write, as a write of register 15 (R22). -/
theorem writeFlag_eq (s : State) (c : Bool) : writeFlag s c = writeV s VF (flagByte c) := rfl

/-- Result first, flag last (R23). -/
theorem writeResultThenFlag_eq (s : State) (x : Reg) (b : Byte) (c : Bool) :
    writeResultThenFlag s x b c = writeV (writeV s x b) VF (flagByte c) := rfl

/-! ## Stack and program counter -/

/-- `pop` after a newest entry `a` (R9). -/
theorem pop_append {s : State} {l : List Word} {a : Word} (h : s.stack = l ++ [a]) :
    pop s = some (a, s.setStack l) := by
  simp [pop, h]

/-- `pop` of an empty stack. -/
theorem pop_nil {s : State} (h : s.stack = []) : pop s = none := by simp [pop, h]

/-- All `pop` can answer. -/
theorem pop_cases (s : State) :
    (s.stack = [] ∧ pop s = none) ∨ ∃ l a, s.stack = l ++ [a] ∧ pop s = some (a, s.setStack l) := by
  rcases List.eq_nil_or_concat s.stack with h | ⟨l, a, h⟩
  · exact .inl ⟨h, pop_nil h⟩
  · rw [List.concat_eq_append] at h
    exact .inr ⟨l, a, h, pop_append h⟩

/-- A skip is a write of `PC` (R127). -/
theorem skipIf_eq (c : Bool) (s : State) : skipIf c s = s.setPc (if c = true then s.pc + 2#16 else s.pc) := by
  cases c <;> rfl

/-! ## Keys -/

/-- The lowest key down, said without the search (R36). -/
theorem lowestDown_eq_some_iff (keys : Word) (k : Nat) :
    lowestDown keys = some k ↔ keys.getLsbD k = true ∧ ∀ j, j < k → keys.getLsbD j = false := by
  have hlt : keys.getLsbD k = true → k < 16 := BitVec.lt_of_getLsbD
  unfold lowestDown isDown
  rw [List.find?_range_eq_some]
  constructor
  · rintro ⟨h, -, h'⟩
    exact ⟨h, fun j hj => by simpa using h' j hj⟩
  · rintro ⟨h, h'⟩
    exact ⟨h, by simpa using hlt h, fun j hj => by simpa using h' j hj⟩

/-- No key is down exactly when the mask is 0 (R36). -/
theorem lowestDown_eq_none_iff (keys : Word) : lowestDown keys = none ↔ keys = 0#16 := by
  unfold lowestDown isDown
  rw [List.find?_eq_none]
  constructor
  · intro h
    apply BitVec.eq_of_getLsbD_eq
    intro j hj
    simpa using h j (by simpa using hj)
  · rintro rfl k -
    simp

end Sys2Proof.Machine
end

