-- ==== Sys2Proof/Laws/Exec.lean ====
section
/-!
SUPPORT. One lemma per meaning that can end in more than one way: under which condition it answers which state, or
which fault. The other meanings answer one state by definition.
-/
namespace Sys2Proof.Machine

/-! ## Control flow and keys -/

theorem exec_ret_next {s : State} {l : List Word} {a : Word} (h : s.stack = l ++ [a]) :
    exec .ret s = .next ((s.setStack l).setPc a) := by
  simp [exec, execRet, pop_append h]

theorem exec_ret_fault {s : State} (h : s.stack = []) :
    exec .ret s = .fault (.stackUnderflow (s.pc - 2#16) 0x00EE#16) := by
  simp [exec, execRet, pop_nil h, raiseStackUnderflow, raise, pc0, encode]

theorem exec_skp_next {s : State} {x : Reg} (h : (readV s x).toNat ≤ 15) :
    exec (.skp x) s = .next (skipIf (isDown s.keys (readV s x).toNat) s) := by
  simp [exec, execSkp, Nat.not_lt.2 h]

theorem exec_skp_fault {s : State} {x : Reg} (h : (readV s x).toNat > 15) :
    exec (.skp x) s = .fault (.keyIndexOutOfRange (readV s x) (s.pc - 2#16) (encode (.skp x))) := by
  simp [exec, execSkp, h, raiseKeyIndex, raise, pc0]

theorem exec_sknp_next {s : State} {x : Reg} (h : (readV s x).toNat ≤ 15) :
    exec (.sknp x) s = .next (skipIf (!isDown s.keys (readV s x).toNat) s) := by
  simp [exec, execSknp, Nat.not_lt.2 h]

theorem exec_sknp_fault {s : State} {x : Reg} (h : (readV s x).toNat > 15) :
    exec (.sknp x) s = .fault (.keyIndexOutOfRange (readV s x) (s.pc - 2#16) (encode (.sknp x))) := by
  simp [exec, execSknp, h, raiseKeyIndex, raise, pc0]

theorem exec_ldVxK_wait {s : State} (x : Reg) (h : s.keys = 0#16) :
    exec (.ldVxK x) s = .next (s.setPc (s.pc - 2#16)) := by
  simp [exec, execLdVxK, (lowestDown_eq_none_iff s.keys).2 h, rewind]

/-- With a key down the register receives some key that is the lowest down. -/
theorem exec_ldVxK_key {s : State} (x : Reg) (h : s.keys ≠ 0#16) :
    ∃ k, s.keys.getLsbD k = true ∧ (∀ j, j < k → s.keys.getLsbD j = false) ∧ k < 16 ∧
      exec (.ldVxK x) s = .next (writeV s x (BitVec.ofNat 8 k)) := by
  obtain ⟨k, hk⟩ := Option.ne_none_iff_exists'.1 (fun e => h ((lowestDown_eq_none_iff s.keys).1 e))
  obtain ⟨h1, h2⟩ := (lowestDown_eq_some_iff _ _).1 hk
  exact ⟨k, h1, h2, BitVec.lt_of_getLsbD h1, by simp [exec, execLdVxK, hk]⟩

/-! ## Index -/

/-- `ADD I, Vx` in both settings of the quirk. -/
theorem exec_addI (s : State) (x : Reg) : exec (.addI x) s = .next
    (if s.q.dontIndexOverflow = true then
      writeV (s.setI (s.i + (readV s x).zeroExtend 16)) VF (flagByte (indexOverflow s.i (readV s x)))
    else s.setI (s.i + (readV s x).zeroExtend 16)) := by
  simp only [exec, execAddI, writeFlag]
  split <;> rfl

/-! ## Memory -/

theorem exec_ldB_next {s : State} (x : Reg) (h : s.i.toNat ≤ 4093) :
    ∃ m, writeBytes s.mem s.i.toNat (bcdDigits (readV s x)) = .ok m ∧ exec (.ldB x) s = .next (s.setMem m) := by
  obtain ⟨m, hm⟩ := writeBytes_ok s.mem (a := s.i.toNat) (bs := bcdDigits (readV s x))
    (by simp only [bcdDigits, List.length_cons, List.length_nil]; omega)
  exact ⟨m, hm, by simp [exec, execLdB, indexAddr, hm]⟩

theorem exec_ldB_fault {s : State} (x : Reg) (h : s.i.toNat > 4093) : exec (.ldB x) s =
    .fault (.memoryOutOfBounds .write (max s.i.toNat 4096) (s.pc - 2#16) (some (encode (.ldB x)))) := by
  have hm := writeBytes_error s.mem (a := s.i.toNat) (bs := bcdDigits (readV s x))
    (by simp only [bcdDigits, List.length_cons, List.length_nil]; omega)
  simp only [exec, execLdB, indexAddr, hm, raiseOutOfBounds, raise, pc0]

theorem exec_storeRegs_next {s : State} {x : Reg} (h : s.i.toNat + x.val ≤ 4095) :
    ∃ m, writeBytes s.mem s.i.toNat (readVs s x) = .ok m ∧
      exec (.storeRegs x) s = .next ((s.setMem m).setI (indexAfterBlock s x)) := by
  obtain ⟨m, hm⟩ := writeBytes_ok s.mem (a := s.i.toNat) (bs := readVs s x) (by simp only [readVs_length]; omega)
  exact ⟨m, hm, by simp [exec, execStoreRegs, indexAddr, hm]⟩

theorem exec_storeRegs_fault {s : State} {x : Reg} (h : s.i.toNat + x.val > 4095) : exec (.storeRegs x) s =
    .fault (.memoryOutOfBounds .write (max s.i.toNat 4096) (s.pc - 2#16) (some (encode (.storeRegs x)))) := by
  have hm := writeBytes_error s.mem (a := s.i.toNat) (bs := readVs s x) (by simp only [readVs_length]; omega)
  simp only [exec, execStoreRegs, indexAddr, hm, raiseOutOfBounds, raise, pc0]

theorem exec_loadRegs_next {s : State} {x : Reg} (h : s.i.toNat + x.val ≤ 4095) :
    exec (.loadRegs x) s = .next ((writeVs s 0
      ((List.range (x.val + 1)).map (fun k => Memory.read s.mem (s.i.toNat + k)))).setI (indexAfterBlock s x)) := by
  simp only [exec, execLoadRegs, indexAddr, readBytes_ok s.mem (.inr (by omega) : x.val + 1 = 0 ∨ s.i.toNat + (x.val + 1) ≤ 4096)]

theorem exec_loadRegs_fault {s : State} {x : Reg} (h : s.i.toNat + x.val > 4095) : exec (.loadRegs x) s =
    .fault (.memoryOutOfBounds .read (max s.i.toNat 4096) (s.pc - 2#16) (some (encode (.loadRegs x)))) := by
  simp only [exec, execLoadRegs, indexAddr, readBytes_error s.mem (by omega : ¬ (x.val + 1 = 0 ∨ s.i.toNat + (x.val + 1) ≤ 4096)),
    raiseOutOfBounds, raise, pc0]

/-- Where `I` ends after a block transfer that stays in bounds: no wrap is reached (R175). -/
theorem indexAfterBlock_toNat {s : State} {x : Reg} (h : s.i.toNat + x.val ≤ 4095) :
    (indexAfterBlock s x).toNat = if s.q.storeLoadMem = true then s.i.toNat else s.i.toNat + x.val + 1 := by
  unfold indexAfterBlock
  split
  · rfl
  · rw [BitVec.toNat_add, BitVec.toNat_ofNat]
    omega

/-! ## Display -/

/-- The bytes of the sprite a draw reads. -/
abbrev spriteBytes (s : State) (n : BitVec 4) : List Byte :=
  (List.range n.toNat).map (fun k => Memory.read s.mem (s.i.toNat + k))

theorem exec_drw_next {s : State} (x y : Reg) {n : BitVec 4} (h : n.toNat = 0 ∨ s.i.toNat + n.toNat ≤ 4096) :
    exec (.drw x y n) s = .next (writeV
      (s.setFb (drawRows (readV s x) (readV s y) 0 (spriteBytes s n) (s.fb, false)).1) VF
      (flagByte (drawRows (readV s x) (readV s y) 0 (spriteBytes s n) (s.fb, false)).2)) := by
  simp only [exec, execDrw, indexAddr, readBytes_ok s.mem h, writeFlag_eq]

theorem exec_drw_fault {s : State} (x y : Reg) {n : BitVec 4} (h : ¬ (n.toNat = 0 ∨ s.i.toNat + n.toNat ≤ 4096)) :
    exec (.drw x y n) s =
      .fault (.memoryOutOfBounds .read (max s.i.toNat 4096) (s.pc - 2#16) (some (encode (.drw x y n)))) := by
  simp only [exec, execDrw, indexAddr, readBytes_error s.mem h, raiseOutOfBounds, raise, pc0]

/-! ## What a next state tells: the check passed, and the state is the one above -/

theorem exec_ret_inv {s t : State} (h : exec .ret s = .next t) :
    ∃ l a, s.stack = l ++ [a] ∧ t = (s.setStack l).setPc a := by
  rcases pop_cases s with ⟨h', -⟩ | ⟨l, a, h', -⟩
  · rw [exec_ret_fault h'] at h; cases h
  · rw [exec_ret_next h'] at h; cases h; exact ⟨l, a, h', rfl⟩

theorem exec_skp_inv {s t : State} {x : Reg} (h : exec (.skp x) s = .next t) :
    (readV s x).toNat ≤ 15 ∧ t = skipIf (isDown s.keys (readV s x).toNat) s := by
  rcases Nat.lt_or_ge 15 (readV s x).toNat with hx | hx
  · rw [exec_skp_fault hx] at h; cases h
  · rw [exec_skp_next hx] at h; cases h; exact ⟨hx, rfl⟩

theorem exec_sknp_inv {s t : State} {x : Reg} (h : exec (.sknp x) s = .next t) :
    (readV s x).toNat ≤ 15 ∧ t = skipIf (!isDown s.keys (readV s x).toNat) s := by
  rcases Nat.lt_or_ge 15 (readV s x).toNat with hx | hx
  · rw [exec_sknp_fault hx] at h; cases h
  · rw [exec_sknp_next hx] at h; cases h; exact ⟨hx, rfl⟩

theorem exec_ldVxK_inv {s t : State} {x : Reg} (h : exec (.ldVxK x) s = .next t) :
    (s.keys = 0#16 ∧ t = s.setPc (s.pc - 2#16)) ∨
    (s.keys ≠ 0#16 ∧ ∃ k, s.keys.getLsbD k = true ∧ (∀ j, j < k → s.keys.getLsbD j = false) ∧ k < 16 ∧
      t = writeV s x (BitVec.ofNat 8 k)) := by
  by_cases hk : s.keys = 0#16
  · rw [exec_ldVxK_wait x hk] at h; cases h; exact .inl ⟨hk, rfl⟩
  · obtain ⟨k, h1, h2, h3, e⟩ := exec_ldVxK_key x hk
    rw [e] at h; cases h; exact .inr ⟨hk, k, h1, h2, h3, rfl⟩

theorem exec_ldB_inv {s t : State} {x : Reg} (h : exec (.ldB x) s = .next t) :
    s.i.toNat ≤ 4093 ∧ ∃ m, writeBytes s.mem s.i.toNat (bcdDigits (readV s x)) = .ok m ∧ t = s.setMem m := by
  rcases Nat.lt_or_ge 4093 s.i.toNat with hi | hi
  · rw [exec_ldB_fault x hi] at h; cases h
  · obtain ⟨m, hm, e⟩ := exec_ldB_next x hi
    rw [e] at h; cases h; exact ⟨hi, m, hm, rfl⟩

theorem exec_storeRegs_inv {s t : State} {x : Reg} (h : exec (.storeRegs x) s = .next t) :
    s.i.toNat + x.val ≤ 4095 ∧ ∃ m, writeBytes s.mem s.i.toNat (readVs s x) = .ok m ∧
      t = (s.setMem m).setI (indexAfterBlock s x) := by
  rcases Nat.lt_or_ge 4095 (s.i.toNat + x.val) with hi | hi
  · rw [exec_storeRegs_fault hi] at h; cases h
  · obtain ⟨m, hm, e⟩ := exec_storeRegs_next hi
    rw [e] at h; cases h; exact ⟨hi, m, hm, rfl⟩

theorem exec_loadRegs_inv {s t : State} {x : Reg} (h : exec (.loadRegs x) s = .next t) :
    s.i.toNat + x.val ≤ 4095 ∧ t = (writeVs s 0
      ((List.range (x.val + 1)).map (fun k => Memory.read s.mem (s.i.toNat + k)))).setI (indexAfterBlock s x) := by
  rcases Nat.lt_or_ge 4095 (s.i.toNat + x.val) with hi | hi
  · rw [exec_loadRegs_fault hi] at h; cases h
  · rw [exec_loadRegs_next hi] at h; cases h; exact ⟨hi, rfl⟩

theorem exec_drw_inv {s t : State} {x y : Reg} {n : BitVec 4} (h : exec (.drw x y n) s = .next t) :
    (n.toNat = 0 ∨ s.i.toNat + n.toNat ≤ 4096) ∧
    t = writeV (s.setFb (drawRows (readV s x) (readV s y) 0 (spriteBytes s n) (s.fb, false)).1) VF
      (flagByte (drawRows (readV s x) (readV s y) 0 (spriteBytes s n) (s.fb, false)).2) := by
  by_cases hn : n.toNat = 0 ∨ s.i.toNat + n.toNat ≤ 4096
  · rw [exec_drw_next x y hn] at h; cases h; exact ⟨hn, rfl⟩
  · rw [exec_drw_fault x y hn] at h; cases h

end Sys2Proof.Machine
end

