-- ==== Sys2Proof/Laws/Frame.lean ====
section
/-!
SUPPORT. The footprint of every instruction: all it may change when it answers a next state. Each whole-machine rule
about who writes what is read off this one lemma.
-/
namespace Sys2Proof.Machine

/-- All that an instruction may change, from the state after the fetch. -/
def footprint : Instr → State → List Element
  | .cls, _ => [.fb, .upd]
  | .ret, _ | .call _, _ => [.pc, .stack]
  | .jp _, _ | .seImm _ _, _ | .sneImm _ _, _ | .seReg _ _, _ | .sneReg _ _, _ | .jpV0 _ _, _ | .skp _, _
  | .sknp _, _ => [.pc]
  | .ldImm x _, _ | .addImm x _, _ | .ldReg x _, _ | .ldVxDt x, _ => [.v x]
  | .orReg x _, s | .andReg x _, s | .xorReg x _, s => if s.q.logicKeepFlag = true then [.v x] else [.v x, .v VF]
  | .addReg x _, _ | .subReg x _, _ | .shrReg x _, _ | .shlReg x _, _ => [.v x, .v VF]
  | .subnReg x y, _ => [.v (subnTarget Config.subnDest x y), .v VF]
  | .ldI _, _ | .ldF _, _ => [.i]
  | .rnd x _, _ => [.v x, .draws]
  | .drw _ _ _, _ => [.v VF, .fb, .upd]
  | .ldVxK x, s => if s.keys = 0#16 then [.pc] else [.v x]
  | .ldDtVx _, _ => [.dt]
  | .ldStVx _, _ => [.st]
  | .addI _, s => if s.q.dontIndexOverflow = true then [.i, .v VF] else [.i]
  | .ldB _, s => bytesAt s.i.toNat 3
  | .storeRegs x, s => Element.i :: bytesAt s.i.toNat (x.val + 1)
  | .loadRegs x, _ => Element.i :: ((List.finRange 16).filter (fun k => k ≤ x)).map Element.v

theorem mem_bytesAt (a n : Nat) (e : Element) : e ∈ bytesAt a n ↔ ∃ k, k < n ∧ e = .mem (a + k) := by
  simp [bytesAt, eq_comm]

/-! ## The frames of the updates -/

theorem changes_setPc (s : State) (a : Word) : ChangesOnly [.pc] s (s.setPc a) := by
  constructor <;> simp

theorem changes_setI (s : State) (a : Word) : ChangesOnly [.i] s (s.setI a) := by
  constructor <;> simp

theorem changes_writeV (s : State) (x : Reg) (b : Byte) : ChangesOnly [.v x] s (writeV s x b) := by
  constructor <;> simp +contextual

theorem changes_resultThenFlag (s : State) (x : Reg) (b c : Byte) :
    ChangesOnly [.v x, .v VF] s (writeV (writeV s x b) VF c) := by
  constructor <;> simp +contextual

theorem changes_skipIf (c : Bool) (s : State) : ChangesOnly [.pc] s (skipIf c s) := by
  rw [skipIf_eq]; exact changes_setPc _ _

/-- A write of bytes changes no byte outside them. -/
theorem read_outside {m m' : Memory} {a : Nat} {bs : List Byte} (h : writeBytes m a bs = .ok m') (c : Nat)
    (hc : Element.mem c ∉ bytesAt a bs.length) : Memory.read m' c = Memory.read m c := by
  rw [read_writeBytes h]
  split
  · rename_i hle
    have : bs.length ≤ c - a := by
      by_contra hlt
      exact hc ((mem_bytesAt _ _ _).2 ⟨c - a, by omega, by rw [Nat.add_sub_cancel' hle]⟩)
    rw [List.getD_eq_getElem?_getD, List.getElem?_eq_none this]
    rfl
  · rfl

/-- A write of bytes alone changes those bytes alone. -/
theorem changes_setMem {s : State} {m : Memory} {a : Nat} {bs : List Byte}
    (h : writeBytes s.mem a bs = .ok m) : ChangesOnly (bytesAt a bs.length) s (s.setMem m) := by
  constructor <;> try (intros; rfl)
  exact fun c hc => read_outside h c hc

theorem logicOp_changes (f : Byte → Byte → Byte) (x y : Reg) (s : State) :
    ChangesOnly (if s.q.logicKeepFlag = true then [.v x] else [.v x, .v VF]) s (logicOp f x y s) := by
  unfold logicOp logicClear
  split
  · exact changes_writeV _ _ _
  · constructor <;> simp +contextual [writeFlag_eq]

/-- An instruction that answers a next state has changed nothing outside its footprint. -/
theorem exec_changes {i : Instr} {s t : State} (h : exec i s = .next t) : ChangesOnly (footprint i s) s t := by
  cases i
  case ret =>
    obtain ⟨l, a, -, rfl⟩ := exec_ret_inv h
    constructor <;> simp [footprint]
  case skp x => obtain ⟨-, rfl⟩ := exec_skp_inv h; exact changes_skipIf _ _
  case sknp x => obtain ⟨-, rfl⟩ := exec_sknp_inv h; exact changes_skipIf _ _
  case ldVxK x =>
    rcases exec_ldVxK_inv h with ⟨hk, rfl⟩ | ⟨hk, k, -, -, -, rfl⟩
    · rw [footprint, if_pos hk]; exact changes_setPc _ _
    · rw [footprint, if_neg hk]; exact changes_writeV _ _ _
  case ldB x =>
    obtain ⟨-, m, hm, rfl⟩ := exec_ldB_inv h
    exact changes_setMem hm
  case storeRegs x =>
    obtain ⟨-, m, hm, rfl⟩ := exec_storeRegs_inv h
    constructor <;> try (intros; rfl)
    · exact fun hi => absurd (by simp [footprint]) hi
    · exact fun c hc => read_outside hm c (by
        rw [readVs_length]; exact fun hin => hc (List.mem_cons_of_mem _ hin))
  case loadRegs x =>
    obtain ⟨-, rfl⟩ := exec_loadRegs_inv h
    constructor <;> (try simp [footprint]; done)
    intro r hr
    rw [readV_setI, readV_writeVs _ _ _ _ (by simp only [List.length_map, List.length_range]; omega), if_pos (Nat.zero_le _)]
    have hx : ¬ r ≤ x := fun hle => hr (by simp [footprint, hle])
    rw [List.getD_eq_getElem?_getD, List.getElem?_eq_none]
    · rfl
    · simp only [List.length_map, List.length_range]
      have := Fin.not_le.1 hx
      have : x.val < r.val := this
      omega
  case drw x y n =>
    obtain ⟨-, rfl⟩ := exec_drw_inv h
    constructor <;> simp +contextual [footprint]
  case addI x =>
    rw [exec_addI] at h
    cases h
    by_cases hq : s.q.dontIndexOverflow = true
    · simp only [footprint, if_pos hq]
      constructor <;> simp +contextual
    · simp only [footprint, if_neg hq]
      exact changes_setI _ _
  case orReg x y => cases h; exact logicOp_changes _ _ _ _
  case andReg x y => cases h; exact logicOp_changes _ _ _ _
  case xorReg x y => cases h; exact logicOp_changes _ _ _ _
  case rnd x nn => cases h; constructor <;> simp +contextual [footprint]
  case call nnn => cases h; constructor <;> simp [footprint, push]
  all_goals
    cases h
    first
    | exact changes_skipIf _ _
    | exact changes_setPc _ _
    | exact changes_setI _ _
    | exact changes_writeV _ _ _
    | exact changes_resultThenFlag _ _ _ _
    | (constructor <;> simp [footprint])

end Sys2Proof.Machine
end

