-- ==== Sys2Proof/Laws/PerInstr.lean ====
section
/-!
SUPPORT. The family EncodeNumber: the word of each instruction as a number, field by field, one lemma per constructor.
-/
namespace Sys2Proof.Laws

open Sys2Proof

/-- The word of an instruction as a number: class, `x`, `y`, `n`, `nn`, `nnn` at their places (R91, R94, R103). -/
def encodeNumber : Instr → Nat
  | .cls => 0x00E0
  | .ret => 0x00EE
  | .jp nnn => 0x1000 + nnn.toNat
  | .call nnn => 0x2000 + nnn.toNat
  | .seImm x nn => 0x3000 + 256 * x.val + nn.toNat
  | .sneImm x nn => 0x4000 + 256 * x.val + nn.toNat
  | .seReg x y => 0x5000 + 256 * x.val + 16 * y.val
  | .ldImm x nn => 0x6000 + 256 * x.val + nn.toNat
  | .addImm x nn => 0x7000 + 256 * x.val + nn.toNat
  | .ldReg x y => 0x8000 + 256 * x.val + 16 * y.val
  | .orReg x y => 0x8000 + 256 * x.val + 16 * y.val + 1
  | .andReg x y => 0x8000 + 256 * x.val + 16 * y.val + 2
  | .xorReg x y => 0x8000 + 256 * x.val + 16 * y.val + 3
  | .addReg x y => 0x8000 + 256 * x.val + 16 * y.val + 4
  | .subReg x y => 0x8000 + 256 * x.val + 16 * y.val + 5
  | .shrReg x y => 0x8000 + 256 * x.val + 16 * y.val + 6
  | .subnReg x y => 0x8000 + 256 * x.val + 16 * y.val + 7
  | .shlReg x y => 0x8000 + 256 * x.val + 16 * y.val + 14
  | .sneReg x y => 0x9000 + 256 * x.val + 16 * y.val
  | .ldI nnn => 0xA000 + nnn.toNat
  | .jpV0 nnn _ => 0xB000 + nnn.toNat
  | .rnd x nn => 0xC000 + 256 * x.val + nn.toNat
  | .drw x y n => 0xD000 + 256 * x.val + 16 * y.val + n.toNat
  | .skp x => 0xE000 + 256 * x.val + 0x9E
  | .sknp x => 0xE000 + 256 * x.val + 0xA1
  | .ldVxDt x => 0xF000 + 256 * x.val + 0x07
  | .ldVxK x => 0xF000 + 256 * x.val + 0x0A
  | .ldDtVx x => 0xF000 + 256 * x.val + 0x15
  | .ldStVx x => 0xF000 + 256 * x.val + 0x18
  | .addI x => 0xF000 + 256 * x.val + 0x1E
  | .ldF x => 0xF000 + 256 * x.val + 0x29
  | .ldB x => 0xF000 + 256 * x.val + 0x33
  | .storeRegs x => 0xF000 + 256 * x.val + 0x55
  | .loadRegs x => 0xF000 + 256 * x.val + 0x65

/-- The encoder gives the number of the instruction. -/
def EncodeNumber.Statement (i : Instr) : Prop := (encode i).toNat = encodeNumber i

theorem EncodeNumber.cls : EncodeNumber.Statement (.cls) :=
  rfl

theorem EncodeNumber.ret : EncodeNumber.Statement (.ret) :=
  rfl

theorem EncodeNumber.jp (nnn : Addr12) : EncodeNumber.Statement (.jp nnn) :=
  encNNN_toNat 0x1000#16 1 rfl nnn

theorem EncodeNumber.call (nnn : Addr12) : EncodeNumber.Statement (.call nnn) :=
  encNNN_toNat 0x2000#16 2 rfl nnn

theorem EncodeNumber.seImm (x : Reg) (nn : Byte) : EncodeNumber.Statement (.seImm x nn) :=
  encXNN_toNat 0x3000#16 3 rfl x nn

theorem EncodeNumber.sneImm (x : Reg) (nn : Byte) : EncodeNumber.Statement (.sneImm x nn) :=
  encXNN_toNat 0x4000#16 4 rfl x nn

theorem EncodeNumber.seReg (x : Reg) (y : Reg) : EncodeNumber.Statement (.seReg x y) := by
  rw [EncodeNumber.Statement, encode, encXYN_subop 0x5000#16 0x5000#16 0#4 x y rfl]
  exact encXYN_toNat 0x5000#16 5 rfl x y 0#4

theorem EncodeNumber.ldImm (x : Reg) (nn : Byte) : EncodeNumber.Statement (.ldImm x nn) :=
  encXNN_toNat 0x6000#16 6 rfl x nn

theorem EncodeNumber.addImm (x : Reg) (nn : Byte) : EncodeNumber.Statement (.addImm x nn) :=
  encXNN_toNat 0x7000#16 7 rfl x nn

theorem EncodeNumber.ldReg (x : Reg) (y : Reg) : EncodeNumber.Statement (.ldReg x y) := by
  rw [EncodeNumber.Statement, encode, encXYN_subop 0x8000#16 0x8000#16 0#4 x y rfl]
  exact encXYN_toNat 0x8000#16 8 rfl x y 0#4

theorem EncodeNumber.orReg (x : Reg) (y : Reg) : EncodeNumber.Statement (.orReg x y) := by
  rw [EncodeNumber.Statement, encode, encXYN_subop 0x8000#16 0x8001#16 1#4 x y rfl]
  exact encXYN_toNat 0x8000#16 8 rfl x y 1#4

theorem EncodeNumber.andReg (x : Reg) (y : Reg) : EncodeNumber.Statement (.andReg x y) := by
  rw [EncodeNumber.Statement, encode, encXYN_subop 0x8000#16 0x8002#16 2#4 x y rfl]
  exact encXYN_toNat 0x8000#16 8 rfl x y 2#4

theorem EncodeNumber.xorReg (x : Reg) (y : Reg) : EncodeNumber.Statement (.xorReg x y) := by
  rw [EncodeNumber.Statement, encode, encXYN_subop 0x8000#16 0x8003#16 3#4 x y rfl]
  exact encXYN_toNat 0x8000#16 8 rfl x y 3#4

theorem EncodeNumber.addReg (x : Reg) (y : Reg) : EncodeNumber.Statement (.addReg x y) := by
  rw [EncodeNumber.Statement, encode, encXYN_subop 0x8000#16 0x8004#16 4#4 x y rfl]
  exact encXYN_toNat 0x8000#16 8 rfl x y 4#4

theorem EncodeNumber.subReg (x : Reg) (y : Reg) : EncodeNumber.Statement (.subReg x y) := by
  rw [EncodeNumber.Statement, encode, encXYN_subop 0x8000#16 0x8005#16 5#4 x y rfl]
  exact encXYN_toNat 0x8000#16 8 rfl x y 5#4

theorem EncodeNumber.shrReg (x : Reg) (y : Reg) : EncodeNumber.Statement (.shrReg x y) := by
  rw [EncodeNumber.Statement, encode, encXYN_subop 0x8000#16 0x8006#16 6#4 x y rfl]
  exact encXYN_toNat 0x8000#16 8 rfl x y 6#4

theorem EncodeNumber.subnReg (x : Reg) (y : Reg) : EncodeNumber.Statement (.subnReg x y) := by
  rw [EncodeNumber.Statement, encode, encXYN_subop 0x8000#16 0x8007#16 7#4 x y rfl]
  exact encXYN_toNat 0x8000#16 8 rfl x y 7#4

theorem EncodeNumber.shlReg (x : Reg) (y : Reg) : EncodeNumber.Statement (.shlReg x y) := by
  rw [EncodeNumber.Statement, encode, encXYN_subop 0x8000#16 0x800E#16 14#4 x y rfl]
  exact encXYN_toNat 0x8000#16 8 rfl x y 14#4

theorem EncodeNumber.sneReg (x : Reg) (y : Reg) : EncodeNumber.Statement (.sneReg x y) := by
  rw [EncodeNumber.Statement, encode, encXYN_subop 0x9000#16 0x9000#16 0#4 x y rfl]
  exact encXYN_toNat 0x9000#16 9 rfl x y 0#4

theorem EncodeNumber.ldI (nnn : Addr12) : EncodeNumber.Statement (.ldI nnn) :=
  encNNN_toNat 0xA000#16 10 rfl nnn

theorem EncodeNumber.jpV0 (nnn : Addr12) (x : Reg) : EncodeNumber.Statement (.jpV0 nnn x) :=
  encNNN_toNat 0xB000#16 11 rfl nnn

theorem EncodeNumber.rnd (x : Reg) (nn : Byte) : EncodeNumber.Statement (.rnd x nn) :=
  encXNN_toNat 0xC000#16 12 rfl x nn

theorem EncodeNumber.drw (x : Reg) (y : Reg) (n : BitVec 4) : EncodeNumber.Statement (.drw x y n) :=
  encXYN_toNat 0xD000#16 13 rfl x y n

theorem EncodeNumber.skp (x : Reg) : EncodeNumber.Statement (.skp x) := by
  rw [EncodeNumber.Statement, encode, encX_subop 0xE000#16 0xE09E#16 0x9E#8 x rfl]
  exact encXNN_toNat 0xE000#16 14 rfl x 0x9E#8

theorem EncodeNumber.sknp (x : Reg) : EncodeNumber.Statement (.sknp x) := by
  rw [EncodeNumber.Statement, encode, encX_subop 0xE000#16 0xE0A1#16 0xA1#8 x rfl]
  exact encXNN_toNat 0xE000#16 14 rfl x 0xA1#8

theorem EncodeNumber.ldVxDt (x : Reg) : EncodeNumber.Statement (.ldVxDt x) := by
  rw [EncodeNumber.Statement, encode, encX_subop 0xF000#16 0xF007#16 0x07#8 x rfl]
  exact encXNN_toNat 0xF000#16 15 rfl x 0x07#8

theorem EncodeNumber.ldVxK (x : Reg) : EncodeNumber.Statement (.ldVxK x) := by
  rw [EncodeNumber.Statement, encode, encX_subop 0xF000#16 0xF00A#16 0x0A#8 x rfl]
  exact encXNN_toNat 0xF000#16 15 rfl x 0x0A#8

theorem EncodeNumber.ldDtVx (x : Reg) : EncodeNumber.Statement (.ldDtVx x) := by
  rw [EncodeNumber.Statement, encode, encX_subop 0xF000#16 0xF015#16 0x15#8 x rfl]
  exact encXNN_toNat 0xF000#16 15 rfl x 0x15#8

theorem EncodeNumber.ldStVx (x : Reg) : EncodeNumber.Statement (.ldStVx x) := by
  rw [EncodeNumber.Statement, encode, encX_subop 0xF000#16 0xF018#16 0x18#8 x rfl]
  exact encXNN_toNat 0xF000#16 15 rfl x 0x18#8

theorem EncodeNumber.addI (x : Reg) : EncodeNumber.Statement (.addI x) := by
  rw [EncodeNumber.Statement, encode, encX_subop 0xF000#16 0xF01E#16 0x1E#8 x rfl]
  exact encXNN_toNat 0xF000#16 15 rfl x 0x1E#8

theorem EncodeNumber.ldF (x : Reg) : EncodeNumber.Statement (.ldF x) := by
  rw [EncodeNumber.Statement, encode, encX_subop 0xF000#16 0xF029#16 0x29#8 x rfl]
  exact encXNN_toNat 0xF000#16 15 rfl x 0x29#8

theorem EncodeNumber.ldB (x : Reg) : EncodeNumber.Statement (.ldB x) := by
  rw [EncodeNumber.Statement, encode, encX_subop 0xF000#16 0xF033#16 0x33#8 x rfl]
  exact encXNN_toNat 0xF000#16 15 rfl x 0x33#8

theorem EncodeNumber.storeRegs (x : Reg) : EncodeNumber.Statement (.storeRegs x) := by
  rw [EncodeNumber.Statement, encode, encX_subop 0xF000#16 0xF055#16 0x55#8 x rfl]
  exact encXNN_toNat 0xF000#16 15 rfl x 0x55#8

theorem EncodeNumber.loadRegs (x : Reg) : EncodeNumber.Statement (.loadRegs x) := by
  rw [EncodeNumber.Statement, encode, encX_subop 0xF000#16 0xF065#16 0x65#8 x rfl]
  exact encXNN_toNat 0xF000#16 15 rfl x 0x65#8

end Sys2Proof.Laws
end

