-- ==== Sys2Proof/Laws/Step.lean ====
section
/-!
SUPPORT. All a step can do: run the decoded instruction on the state whose `PC` has advanced, or stop with one of the
faults of the fetch and decode stages, or answer the fault already taken.
-/
namespace Sys2Proof.Machine

/-- The step of a core that can fetch a word that decodes (R10, R64). -/
theorem step_eq_exec {s : State} {i : Instr} (hf : s.fault = none) (hp : s.pc.toNat ≤ 4094)
    (hd : decodeWord (fetchWord s.mem s.pc.toNat) = .ok i) : step s = exec i (s.setPc (s.pc + 2#16)) := by
  have hb : s.pc.toNat + 1 < Config.memSize := by simp only [Config.memSize]; omega
  simp only [step, hf, fetchInstr, fetch, if_pos hb, hd]

theorem step_illegal {s : State} {e : DecodeError} (hf : s.fault = none) (hp : s.pc.toNat ≤ 4094)
    (hd : decodeWord (fetchWord s.mem s.pc.toNat) = .error e) :
    step s = .fault (.unimplementedOpcode (fetchWord s.mem s.pc.toNat) s.pc) := by
  have hb : s.pc.toNat + 1 < Config.memSize := by simp only [Config.memSize]; omega
  simp only [step, hf, fetchInstr, fetch, if_pos hb, hd, raise]

theorem step_fetch_fault {s : State} (hf : s.fault = none) (hp : s.pc.toNat > 4094) :
    step s = .fault (.memoryOutOfBounds .fetch (max s.pc.toNat 4096) s.pc none) := by
  have hb : ¬ s.pc.toNat + 1 < Config.memSize := by simp only [Config.memSize]; omega
  simp only [step, hf, fetchInstr, fetch, if_neg hb, raise]
  rfl

theorem step_faulted {s : State} {f : Fault} (hf : s.fault = some f) : step s = .fault f := by
  simp only [step, hf, raise]

/-- Every way a step can go, in the order of R238. -/
theorem step_cases (s : State) :
    (∃ f, s.fault = some f ∧ step s = .fault f) ∨
    (s.fault = none ∧ s.pc.toNat > 4094 ∧
      step s = .fault (.memoryOutOfBounds .fetch (max s.pc.toNat 4096) s.pc none)) ∨
    (s.fault = none ∧ s.pc.toNat ≤ 4094 ∧ (∃ e, decodeWord (fetchWord s.mem s.pc.toNat) = .error e) ∧
      step s = .fault (.unimplementedOpcode (fetchWord s.mem s.pc.toNat) s.pc)) ∨
    (s.fault = none ∧ s.pc.toNat ≤ 4094 ∧ ∃ i, decodeWord (fetchWord s.mem s.pc.toNat) = .ok i ∧
      step s = exec i (s.setPc (s.pc + 2#16))) := by
  rcases hf : s.fault with _ | f
  · rcases Nat.lt_or_ge 4094 s.pc.toNat with hp | hp
    · exact .inr (.inl ⟨rfl, hp, step_fetch_fault hf hp⟩)
    · rcases hd : decodeWord (fetchWord s.mem s.pc.toNat) with e | i
      · exact .inr (.inr (.inl ⟨rfl, hp, ⟨e, rfl⟩, step_illegal hf hp hd⟩))
      · exact .inr (.inr (.inr ⟨rfl, hp, i, rfl, step_eq_exec hf hp hd⟩))
  · exact .inl ⟨f, rfl, step_faulted hf⟩

/-- A step that answers a next state has run the decoded instruction. -/
theorem step_next {s t : State} (h : step s = .next t) :
    s.fault = none ∧ s.pc.toNat ≤ 4094 ∧ ∃ i, decodeWord (fetchWord s.mem s.pc.toNat) = .ok i ∧
      exec i (s.setPc (s.pc + 2#16)) = .next t := by
  rcases step_cases s with ⟨f, _, e⟩ | ⟨_, _, e⟩ | ⟨_, _, _, e⟩ | ⟨hf, hp, i, hd, e⟩
  · rw [e] at h; cases h
  · rw [e] at h; cases h
  · rw [e] at h; cases h
  · exact ⟨hf, hp, i, hd, e ▸ h⟩

end Sys2Proof.Machine
end

