-- ==== Sys2Proof/Tests/Slice0.lean ====
section
/-!
SUPPORT. Tests. Expected results come from outside the model: the words are written out from the map of R94, and the
results are the vectors of `spec/95_test_vectors.md`, whose numbers (E1, F1, A1, M1, G1, K1, …) stand in the comments.
The witnesses at the end show, for every statement with hypotheses, concrete values that meet them.
-/
namespace Sys2Proof.Tests
open Sys2Proof Sys2Proof.Machine

/-! ## Helpers -/

/-- The reset state with some registers set. -/
def withRegs (l : List (Reg × Byte)) : State := l.foldl (fun s p => writeV s p.1 p.2) State.reset

/-- `s` with the bytes `bs` in memory from `a` upward. -/
def withBytes (s : State) (a : Nat) (bs : List Byte) : State := { s with mem := loadImage s.mem a bs }

/-- `s` with the two bytes of the word `hi lo` at its `PC`. -/
def withWord (s : State) (hi lo : Byte) : State := withBytes s s.pc.toNat [hi, lo]

/-- The step of `s` answers a next state with the property `p`. -/
def goesTo (s : State) (p : State → Bool) : Bool :=
  match step s with
  | .next t => p t
  | _ => false

theorem next_of_goesTo {s : State} {p : State → Bool} (h : goesTo s p = true) : ∃ t, step s = .next t := by
  unfold goesTo at h
  split at h
  · exact ⟨_, ‹_›⟩
  · cases h

/-- The step of `s` stops with the fault `f`. -/
def stopsWith (s : State) (f : Fault) : Bool :=
  match step s with
  | .fault g => decide (g = f)
  | _ => false

/-- A framebuffer with one lit pixel. -/
def onePixel (r : Fin Config.height) (c : Fin Config.width) : Framebuffer := Framebuffer.setPixel .clear r c true

/-! ## WellFormed: the ill-formed term of its one check is refused -/

theorem test_wellFormed_refuses_wrong_x : WellFormed (.jpV0 0x300#12 4) = false := by decide

theorem test_wellFormed_takes_right_x : WellFormed (.jpV0 0x300#12 3) = true := by decide

/-! ## Decoding: every constructor from a word written out from R94 (E1 to E21) -/

theorem test_decode_cls : decodeWord 0b0000000011100000#16 = .ok .cls := by decide
theorem test_decode_ret : decodeWord 0b0000000011101110#16 = .ok .ret := by decide
theorem test_decode_jp : decodeWord 0b0001101010111100#16 = .ok (.jp 0xABC#12) := by decide
theorem test_decode_call : decodeWord 0b0010001100000000#16 = .ok (.call 0x300#12) := by decide
theorem test_decode_seImm : decodeWord 0b0011101001111111#16 = .ok (.seImm 10 0x7F#8) := by decide
theorem test_decode_sneImm : decodeWord 0b0100001000000111#16 = .ok (.sneImm 2 0x07#8) := by decide
theorem test_decode_seReg : decodeWord 0b0101001101000000#16 = .ok (.seReg 3 4) := by decide
theorem test_decode_ldImm : decodeWord 0b0110000000001010#16 = .ok (.ldImm 0 0x0A#8) := by decide
theorem test_decode_addImm : decodeWord 0b0111000111111111#16 = .ok (.addImm 1 0xFF#8) := by decide
theorem test_decode_ldReg : decodeWord 0b1000000100100000#16 = .ok (.ldReg 1 2) := by decide
theorem test_decode_orReg : decodeWord 0b1000000100100001#16 = .ok (.orReg 1 2) := by decide
theorem test_decode_andReg : decodeWord 0b1000000100100010#16 = .ok (.andReg 1 2) := by decide
theorem test_decode_xorReg : decodeWord 0b1000000100100011#16 = .ok (.xorReg 1 2) := by decide
theorem test_decode_addReg : decodeWord 0b1000000100100100#16 = .ok (.addReg 1 2) := by decide
theorem test_decode_subReg : decodeWord 0b1000000100100101#16 = .ok (.subReg 1 2) := by decide
theorem test_decode_shrReg : decodeWord 0b1000000100100110#16 = .ok (.shrReg 1 2) := by decide
theorem test_decode_subnReg : decodeWord 0b1000000100100111#16 = .ok (.subnReg 1 2) := by decide
theorem test_decode_shlReg : decodeWord 0b1000000100101110#16 = .ok (.shlReg 1 2) := by decide
theorem test_decode_sneReg : decodeWord 0b1001001101000101#16 = .ok (.sneReg 3 4) := by decide
theorem test_decode_ldI : decodeWord 0b1010001100000000#16 = .ok (.ldI 0x300#12) := by decide
theorem test_decode_jpV0 : decodeWord 0b1011001100000000#16 = .ok (.jpV0 0x300#12 3) := by decide
theorem test_decode_rnd : decodeWord 0b1100000100001111#16 = .ok (.rnd 1 0x0F#8) := by decide
theorem test_decode_drw : decodeWord 0b1101000000010101#16 = .ok (.drw 0 1 5#4) := by decide
theorem test_decode_skp : decodeWord 0b1110010110011110#16 = .ok (.skp 5) := by decide
theorem test_decode_sknp : decodeWord 0b1110010110100001#16 = .ok (.sknp 5) := by decide
theorem test_decode_ldVxDt : decodeWord 0b1111011000000111#16 = .ok (.ldVxDt 6) := by decide
theorem test_decode_ldVxK : decodeWord 0b1111010100001010#16 = .ok (.ldVxK 5) := by decide
theorem test_decode_ldDtVx : decodeWord 0b1111010100010101#16 = .ok (.ldDtVx 5) := by decide
theorem test_decode_ldStVx : decodeWord 0b1111000000011000#16 = .ok (.ldStVx 0) := by decide
theorem test_decode_addI : decodeWord 0b1111001000011110#16 = .ok (.addI 2) := by decide
theorem test_decode_ldF : decodeWord 0b1111001000101001#16 = .ok (.ldF 2) := by decide
theorem test_decode_ldB : decodeWord 0b1111000000110011#16 = .ok (.ldB 0) := by decide
theorem test_decode_storeRegs : decodeWord 0b1111001001010101#16 = .ok (.storeRegs 2) := by decide
theorem test_decode_loadRegs : decodeWord 0b1111000101100101#16 = .ok (.loadRegs 1) := by decide

/-- E3, E8, E12, E18, E20. -/
theorem test_decode_rejects :
    ([0x0000#16, 0x00E1#16, 0x01E0#16, 0x0AEE#16, 0x0123#16, 0x5341#16, 0x534F#16, 0x8128#16, 0x812D#16, 0x812F#16,
      0xE59F#16, 0xE500#16, 0xE5A2#16, 0xF100#16, 0xF1FF#16, 0xF175#16, 0xF185#16, 0xF130#16].all
        fun w => decide (decodeWord w = .error (.unimplementedOpcode w))) = true := by decide

/-- E21: the byte at the lower address is the high one. -/
theorem test_decode_bigEndian : decode [0x12#8, 0x34#8, 0x56#8] = .ok (.jp 0x234#12, [0x56#8]) := by decide

theorem test_decodeTableWord : decodeTableWord 16 0xD015 = some (.drw 0 1 5#4) := by decide

theorem test_encode : encode (.drw 10 11 12#4) = 0xDABC#16 ∧ encode (.shlReg 1 2) = 0x812E#16 := by decide

/-! ## Control flow (F1 to F23) -/

/-- F1. -/
theorem test_ret_pops_newest : goesTo (withWord { State.reset with pc := 0x400#16, stack := [0x202#16, 0x300#16] } 0x00 0xEE)
    (fun t => t.pc == 0x300#16 && t.stack == [0x202#16]) = true := by decide

/-- F2. -/
theorem test_ret_underflow :
    stopsWith (withWord State.reset 0x00 0xEE) (.stackUnderflow 0x200#16 0x00EE#16) = true := by decide

/-- F4. -/
theorem test_jp : goesTo (withWord State.reset 0x1F 0xFF) (fun t => t.pc == 0xFFF#16) = true := by decide

/-- F6. -/
theorem test_call_pushes : goesTo (withWord { State.reset with stack := [0x500#16] } 0x23 0x00)
    (fun t => t.pc == 0x300#16 && t.stack == [0x500#16, 0x202#16]) = true := by decide

/-- F7. -/
theorem test_call_at_top : goesTo (withWord { State.reset with pc := 0xFFE#16 } 0x23 0x00)
    (fun t => t.stack == [0x1000#16]) = true := by decide

/-- F8, at 0x208. -/
theorem test_seImm_skips : goesTo (withWord { State.reset with pc := 0x208#16 } 0x31 0x00)
    (fun t => t.pc == 0x20C#16) = true := by decide

/-- F9. -/
theorem test_seImm_falls_through : goesTo (withWord { withRegs [(1, 4)] with pc := 0x208#16 } 0x31 0x00)
    (fun t => t.pc == 0x20A#16) = true := by decide

/-- F10. -/
theorem test_sneImm_falls_through :
    goesTo (withWord (withRegs [(2, 7)]) 0x42 0x07) (fun t => t.pc == 0x202#16) = true := by decide

/-- F11. -/
theorem test_sneImm_skips :
    goesTo (withWord (withRegs [(2, 8)]) 0x42 0x07) (fun t => t.pc == 0x204#16) = true := by decide

/-- F12. -/
theorem test_seReg_skips :
    goesTo (withWord (withRegs [(3, 9), (4, 9)]) 0x53 0x40) (fun t => t.pc == 0x204#16) = true := by decide

/-- F13. -/
theorem test_seReg_falls_through :
    goesTo (withWord (withRegs [(3, 9), (4, 1)]) 0x53 0x40) (fun t => t.pc == 0x202#16) = true := by decide

/-- F16. -/
theorem test_sneReg_falls_through :
    goesTo (withWord (withRegs [(3, 9), (4, 9)]) 0x93 0x40) (fun t => t.pc == 0x202#16) = true := by decide

/-- F17. -/
theorem test_sneReg_ignores_low_nibble :
    goesTo (withWord (withRegs [(3, 9), (4, 1)]) 0x93 0x47) (fun t => t.pc == 0x204#16) = true := by decide

/-- F19. -/
theorem test_jpV0_not_masked :
    goesTo (withWord (withRegs [(0, 0xFF)]) 0xBF 0xFF) (fun t => t.pc == 0x10FE#16) = true := by decide

/-- F18 with the quirk. -/
theorem test_jpV0_quirk :
    goesTo (withWord { withRegs [(0, 0x10), (3, 0x20)] with q := { Quirks.allOff with jumpWithOffset := true } } 0xB3 0x00)
      (fun t => t.pc == 0x320#16) = true := by decide

/-- F21. -/
theorem test_fetch_past_end : stopsWith { State.reset with pc := 0xFFF#16 }
    (.memoryOutOfBounds .fetch 0x1000 0xFFF#16 none) = true := by decide

/-- F22, its second step: a fetch at an odd address. -/
theorem test_fetch_odd_address : goesTo (withWord { State.reset with pc := 0x203#16 } 0x6A 0x55)
    (fun t => readV t 10 == 0x55#8 && t.pc == 0x205#16) = true := by decide

/-! ## Registers and arithmetic (A1 to A34) -/

/-- A1. -/
theorem test_ldImm : goesTo (withWord State.reset 0x60 0x0A) (fun t => readV t 0 == 0x0A#8) = true := by decide

/-- A2. -/
theorem test_addImm_no_flag : goesTo (withWord (withRegs [(1, 0xFF), (15, 0x07)]) 0x71 0x01)
    (fun t => readV t 1 == 0#8 && readV t 15 == 0x07#8) = true := by decide

/-- A5. -/
theorem test_ldReg : goesTo (withWord (withRegs [(2, 0x3C)]) 0x81 0x20) (fun t => readV t 1 == 0x3C#8) = true := by
  decide

/-- A10: the operand of register 15 is read after the clear, and the destination ends holding the result. -/
theorem test_or_into_flag : goesTo (withWord (withRegs [(15, 0xAA), (1, 0x05)]) 0x8F 0x11)
    (fun t => readV t 15 == 0x05#8) = true := by decide

/-- A13. -/
theorem test_or_keeps_flag : goesTo (withWord
      { withRegs [(1, 0xF0), (2, 0x0F), (15, 1)] with q := { Quirks.allOff with logicKeepFlag := true } } 0x81 0x21)
    (fun t => readV t 1 == 0xFF#8 && readV t 15 == 1#8) = true := by decide

/-- A7. -/
theorem test_and : goesTo (withWord (withRegs [(1, 0xF0), (2, 0x3C), (15, 1)]) 0x81 0x22)
    (fun t => readV t 1 == 0x30#8 && readV t 15 == 0#8) = true := by decide

/-- A8. -/
theorem test_xor : goesTo (withWord (withRegs [(1, 0xFF), (2, 0x0F), (15, 1)]) 0x81 0x23)
    (fun t => readV t 1 == 0xF0#8 && readV t 15 == 0#8) = true := by decide

/-- A14. -/
theorem test_addReg_carry : goesTo (withWord (withRegs [(0, 0xFF), (1, 0x01)]) 0x80 0x14)
    (fun t => readV t 0 == 0#8 && readV t 15 == 1#8) = true := by decide

/-- A16. -/
theorem test_addReg_into_flag : goesTo (withWord (withRegs [(15, 200), (1, 100)]) 0x8F 0x14)
    (fun t => readV t 15 == 1#8) = true := by decide

/-- A19. -/
theorem test_subReg_equal_is_no_borrow : goesTo (withWord (withRegs [(0, 7), (1, 7)]) 0x80 0x15)
    (fun t => readV t 0 == 0#8 && readV t 15 == 1#8) = true := by decide

/-- A20. -/
theorem test_subReg_borrow : goesTo (withWord (withRegs [(0, 0), (1, 1)]) 0x80 0x15)
    (fun t => readV t 0 == 0xFF#8 && readV t 15 == 0#8) = true := by decide

/-- A23. -/
theorem test_shrReg_from_y : goesTo (withWord (withRegs [(0, 0x81), (1, 0x04)]) 0x80 0x16)
    (fun t => readV t 0 == 0x02#8 && readV t 15 == 0#8) = true := by decide

/-- A23 with the quirk. -/
theorem test_shrReg_quirk :
    goesTo (withWord { withRegs [(0, 0x81), (1, 0x04)] with q := { Quirks.allOff with shift := true } } 0x80 0x16)
      (fun t => readV t 0 == 0x40#8 && readV t 15 == 1#8) = true := by decide

/-- A29. -/
theorem test_subnReg : goesTo (withWord (withRegs [(0, 7), (1, 5)]) 0x80 0x17)
    (fun t => readV t 0 == 0xFE#8 && readV t 1 == 5#8 && readV t 15 == 0#8) = true := by decide

/-- A28 with the destination `y`. -/
theorem test_reverseSubtract_into_y :
    readV (reverseSubtract .y 0 1 (withRegs [(0, 5), (1, 7)])) 1 = 2#8 ∧
    readV (reverseSubtract .y 0 1 (withRegs [(0, 5), (1, 7)])) 0 = 5#8 := by decide

/-- A26. -/
theorem test_shlReg_lost_bit : goesTo (withWord (withRegs [(1, 0x80)]) 0x80 0x1E)
    (fun t => readV t 0 == 0#8 && readV t 15 == 1#8) = true := by decide

/-- A27. -/
theorem test_shlReg_same_register : goesTo (withWord (withRegs [(1, 0x7F)]) 0x81 0x1E)
    (fun t => readV t 1 == 0xFE#8 && readV t 15 == 0#8) = true := by decide

/-- A32: whatever byte is drawn. -/
theorem test_rnd_zero_mask : ∃ t, exec (.rnd 1 0#8) State.reset = .next t ∧ readV t 1 = 0#8 :=
  ⟨_, rfl, by simp [readV_writeV]⟩

/-- A34. -/
theorem test_illegal_word :
    stopsWith (withWord State.reset 0x81 0x28) (.unimplementedOpcode 0x8128#16 0x200#16) = true := by decide

/-! ## Index and memory (M1 to M16) -/

/-- M1. -/
theorem test_ldI : goesTo (withWord State.reset 0xAF 0xFF) (fun t => t.i == 0x0FFF#16) = true := by decide

/-- M3. -/
theorem test_addI_no_flag : goesTo (withWord { withRegs [(2, 2), (15, 9)] with i := 0xFFFF#16 } 0xF2 0x1E)
    (fun t => t.i == 0x0001#16 && readV t 15 == 9#8) = true := by decide

/-- M3 with the quirk. -/
theorem test_addI_quirk : goesTo (withWord
      { withRegs [(2, 2), (15, 9)] with i := 0xFFFF#16, q := { Quirks.allOff with dontIndexOverflow := true } } 0xF2 0x1E)
    (fun t => t.i == 0x0001#16 && readV t 15 == 1#8) = true := by decide

/-- M5. -/
theorem test_ldF : goesTo (withWord (withRegs [(2, 0x0A)]) 0xF2 0x29) (fun t => t.i == 0x082#16) = true := by decide

/-- M6. -/
theorem test_ldF_not_masked : goesTo (withWord (withRegs [(2, 0xFF)]) 0xF2 0x29)
    (fun t => t.i == 0x54B#16) = true := by decide

/-- M8. -/
theorem test_ldB_at_top : goesTo (withWord { withRegs [(0, 123)] with i := 0xFFD#16 } 0xF0 0x33)
    (fun t => Memory.read t.mem 0xFFD == 1#8 && Memory.read t.mem 0xFFE == 2#8 && Memory.read t.mem 0xFFF == 3#8) =
      true := by decide

/-- M9. -/
theorem test_ldB_past_end : stopsWith (withWord { State.reset with i := 0xFFE#16 } 0xF0 0x33)
    (.memoryOutOfBounds .write 0x1000 0x200#16 (some 0xF033#16)) = true := by decide

/-- M10. -/
theorem test_storeRegs : goesTo (withWord { withRegs [(0, 0x11), (1, 0x22), (2, 0x33)] with i := 0x310#16 } 0xF2 0x55)
    (fun t => Memory.read t.mem 0x310 == 0x11#8 && Memory.read t.mem 0x312 == 0x33#8 && t.i == 0x313#16) = true := by
  decide

/-- M12. -/
theorem test_storeRegs_past_end :
    stopsWith (withWord { withRegs [(0, 0x77), (1, 0x88)] with i := 0xFFF#16 } 0xF1 0x55)
      (.memoryOutOfBounds .write 0x1000 0x200#16 (some 0xF155#16)) = true := by decide

/-- M13 with the quirk. -/
theorem test_loadRegs_quirk : goesTo (withWord (withBytes
      { State.reset with i := 0x310#16, q := { Quirks.allOff with storeLoadMem := true } } 0x310 [0xAA, 0xBB]) 0xF1 0x65)
    (fun t => readV t 0 == 0xAA#8 && readV t 1 == 0xBB#8 && t.i == 0x310#16) = true := by decide

/-- M15. -/
theorem test_loadRegs_past_end : stopsWith (withWord { State.reset with i := 0x1000#16 } 0xF0 0x65)
    (.memoryOutOfBounds .read 0x1000 0x200#16 (some 0xF065#16)) = true := by decide

/-! ## Display (G1 to G13) -/

/-- G1. -/
theorem test_cls : goesTo (withWord { withRegs [(15, 1)] with fb := onePixel 3 4 } 0x00 0xE0)
    (fun t => decide (t.fb = Framebuffer.clear) && t.upd && readV t 15 == 1#8) = true := by decide

/-- G5: wraps on both axes. -/
theorem test_drw_wraps : goesTo (withWord (withBytes
      { withRegs [(0, 70), (1, 40)] with i := 0x300#16 } 0x300 [0x80]) 0xD0 0x11)
    (fun t => decide (t.fb = onePixel 8 6) && readV t 15 == 0#8 && t.upd) = true := by decide

/-- G6: bit order and collision. -/
theorem test_drw_collides : goesTo (withWord (withBytes
      { State.reset with i := 0x300#16, fb := onePixel 0 0 } 0x300 [0xC0]) 0xD0 0x11)
    (fun t => decide (t.fb = onePixel 0 1) && readV t 15 == 1#8) = true := by decide

/-! ## Timers, keys and events (K1 to K17) -/

/-- K1. -/
theorem test_skp_down : goesTo (withWord { withRegs [(5, 3)] with keys := 0x0008#16 } 0xE5 0x9E)
    (fun t => t.pc == 0x204#16) = true := by decide

/-- K5. -/
theorem test_skp_no_such_key : stopsWith (withWord (withRegs [(5, 0x10)]) 0xE5 0x9E)
    (.keyIndexOutOfRange 0x10#8 0x200#16 0xE59E#16) = true := by decide

/-- K3. -/
theorem test_sknp_down : goesTo (withWord { withRegs [(5, 3)] with keys := 0x0008#16 } 0xE5 0xA1)
    (fun t => t.pc == 0x202#16) = true := by decide

/-- K4. -/
theorem test_sknp_up : goesTo (withWord { withRegs [(5, 3)] with keys := 0xFFF7#16 } 0xE5 0xA1)
    (fun t => t.pc == 0x204#16) = true := by decide

/-- K6. -/
theorem test_ldVxDt : goesTo (withWord { State.reset with dt := 0x2A#8 } 0xF6 0x07)
    (fun t => readV t 6 == 0x2A#8) = true := by decide

/-- K7. -/
theorem test_ldDtVx : goesTo (withWord (withRegs [(5, 3)]) 0xF5 0x15) (fun t => t.dt == 3#8 && t.st == 0#8) = true := by
  decide

/-- K8. -/
theorem test_ldStVx : goesTo (withWord (withRegs [(0, 0x10)]) 0xF0 0x18) (fun t => t.st == 0x10#8 && tone t) = true := by
  decide

/-- K10. -/
theorem test_ldVxK_waits : goesTo (withWord (withRegs [(5, 0x77)]) 0xF5 0x0A)
    (fun t => t.pc == 0x200#16 && readV t 5 == 0x77#8) = true := by decide

/-- K11. -/
theorem test_ldVxK_lowest : goesTo (withWord { State.reset with keys := 0x0088#16 } 0xF5 0x0A)
    (fun t => t.pc == 0x202#16 && readV t 5 == 3#8) = true := by decide

/-- K13: `ST` stays at 0. -/
theorem test_timerTick : (timerTick { State.reset with dt := 1#8 }).dt = 0#8 ∧
    (timerTick { State.reset with dt := 1#8 }).st = 0#8 := by decide

/-- K15. -/
theorem test_inputSample : wasReleased (inputSample 0#16 { State.reset with keys := 0x0008#16 }) 3 = true ∧
    isDown (inputSample 0#16 { State.reset with keys := 0x0008#16 }).keys 3 = false := by decide

/-- K17. -/
theorem test_presentAck : (presentAck { State.reset with upd := true }).upd = false := by decide

/-- A fault freezes the machine and stays (R236): the step after it changes nothing. -/
theorem test_fault_freezes : (stepState State.reset).fault = some (.unimplementedOpcode 0x0000#16 0x200#16) ∧
    (stepState State.reset).pc = 0x200#16 ∧ stepState (stepState State.reset) = stepState State.reset := by decide

/-! ## Witnesses: concrete values that meet the hypotheses of each statement, clause by clause -/

/-- The reset state with every quirk set. -/
def allQuirks : State := { State.reset with q := ⟨true, true, true, true, true⟩ }

/-- The reset state with a value of the index register. -/
def withI (i : Word) : State := { State.reset with i := i }

theorem witness_DecodeOfEncodeIsIdentity : WellFormed (.jpV0 0xFFF#12 15) = true := by decide

theorem witness_EncodeOfDecode_class9 :
    decodeWord 0x934F#16 = .ok (.sneReg 3 4) ∧ opClass 0x934F#16 = 0x9#4 := by decide

theorem witness_EncodeOfDecode_other : decodeWord 0x8FFE#16 = .ok (.shlReg 15 15) ∧ opClass 0x8FFE#16 ≠ 0x9#4 := by
  decide

theorem witness_DispatchAgrees : decodeWord 0x00EE#16 = .ok .ret ∧
    decodeWord 0x00EF#16 = .error (.unimplementedOpcode 0x00EF#16) := by decide

theorem witness_IllegalWords : IllegalWord 0x00EF#16 ∧ ¬ IllegalWord 0x00EE#16 := by
  unfold IllegalWord; decide

/-- The last address a word can be fetched from. -/
theorem witness_StepRunsDecodedInstruction :
    (withWord { State.reset with pc := 0xFFE#16 } 0x00 0xE0).fault = none ∧
    (withWord { State.reset with pc := 0xFFE#16 } 0x00 0xE0).pc.toNat ≤ 4094 ∧
    decode [Memory.read (withWord { State.reset with pc := 0xFFE#16 } 0x00 0xE0).mem 0xFFE,
      Memory.read (withWord { State.reset with pc := 0xFFE#16 } 0x00 0xE0).mem 0xFFF] = .ok (.cls, []) := by decide

theorem witness_FetchPastEndFaults : ({ State.reset with pc := 4095#16 } : State).fault = none ∧
    ({ State.reset with pc := 4095#16 } : State).pc.toNat > 4094 ∧
    stopsWith { State.reset with pc := 4098#16 } (.memoryOutOfBounds .fetch 4098 4098#16 none) = true := by decide

theorem witness_UnimplementedOpcodeExactly : State.reset.fault = none ∧
    step State.reset = .fault (.unimplementedOpcode 0x0000#16 0x200#16) := ⟨rfl, rfl⟩

theorem witness_UnimplementedOpcodeExactly_back : State.reset.pc.toNat ≤ 4094 ∧
    fetchWord State.reset.mem State.reset.pc.toNat = 0x0000#16 ∧ IllegalWord 0x0000#16 := by unfold IllegalWord; decide

theorem witness_OwnCheck_ret : OwnCheckFails .ret State.reset ∧
    ¬ OwnCheckFails .ret { State.reset with stack := [0#16] } := by simp [OwnCheckFails, State.reset]

theorem witness_OwnCheck_keys : OwnCheckFails (.skp 5) (withRegs [(5, 16)]) ∧ ¬ OwnCheckFails (.skp 5) (withRegs [(5, 15)]) ∧
    OwnCheckFails (.sknp 5) (withRegs [(5, 16)]) ∧ ¬ OwnCheckFails (.sknp 5) (withRegs [(5, 15)]) := by
  simp only [OwnCheckFails]; decide

theorem witness_OwnCheck_drw : OwnCheckFails (.drw 0 0 1#4) (withI 4096#16) ∧ ¬ OwnCheckFails (.drw 0 0 1#4) (withI 4095#16) ∧
    ¬ OwnCheckFails (.drw 0 0 0#4) (withI 0xFFFF#16) ∧ OwnCheckFails (.drw 0 0 15#4) (withI 4082#16) ∧
    ¬ OwnCheckFails (.drw 0 0 15#4) (withI 4081#16) := by simp only [OwnCheckFails]; decide

theorem witness_OwnCheck_memory : OwnCheckFails (.ldB 0) (withI 4094#16) ∧ ¬ OwnCheckFails (.ldB 0) (withI 4093#16) ∧
    OwnCheckFails (.storeRegs 1) (withI 4095#16) ∧ ¬ OwnCheckFails (.storeRegs 0) (withI 4095#16) ∧
    OwnCheckFails (.loadRegs 15) (withI 4081#16) ∧ ¬ OwnCheckFails (.loadRegs 15) (withI 4080#16) := by
  simp only [OwnCheckFails]; decide

/-- Each of the four forms of a record is raised by some instruction. -/
theorem witness_FaultRecordsAreComplete :
    (∃ f, exec .ret State.reset = .fault f) ∧ (∃ f, exec (.skp 5) (withRegs [(5, 16)]) = .fault f) ∧
    (∃ f, exec (.sknp 5) (withRegs [(5, 16)]) = .fault f) ∧ (∃ f, exec (.ldB 0) (withI 4094#16) = .fault f) ∧
    (∃ f, exec (.storeRegs 1) (withI 4095#16) = .fault f) ∧ (∃ f, exec (.drw 0 0 1#4) (withI 4096#16) = .fault f) ∧
    (∃ f, exec (.loadRegs 1) (withI 4095#16) = .fault f) :=
  ⟨⟨_, rfl⟩, ⟨_, rfl⟩, ⟨_, rfl⟩, ⟨_, rfl⟩, ⟨_, rfl⟩, ⟨_, rfl⟩, ⟨_, rfl⟩⟩

theorem witness_FaultingStepFreezesState : ∃ f, step State.reset = .fault f := ⟨_, rfl⟩

theorem witness_FaultIsSticky : ∃ f, (stepState State.reset).fault = some f ∧
    (∃ t, deliver .tick60 (stepState State.reset) = some t) ∧
    (∀ q image, Input.tick60 ≠ .reset q image) ∧
    ∃ t, deliver (.reset Quirks.allOff [0x12#8, 0x00#8]) (stepState State.reset) = some t :=
  ⟨_, rfl, ⟨_, rfl⟩, (fun _ _ h => by cases h), ⟨_, rfl⟩⟩

theorem witness_ReturnPopsNewestEntry :
    ({ State.reset with stack := [0x202#16, 0x300#16] } : State).stack = [0x202#16] ++ [0x300#16] ∧
    State.reset.stack = [] := by decide

theorem witness_ReturnResumesAfterCall : ∃ t r : State, exec (.call 0x300#12) State.reset = .next t ∧ r.stack = t.stack :=
  ⟨_, { State.reset with stack := [0x200#16] }, rfl, rfl⟩

theorem witness_OnlyControlFlowMovesPc :
    (∃ t, exec (.jp 0x300#12) State.reset = .next t ∧ t.pc ≠ State.reset.pc) ∧
    (∃ t, exec (.ldVxK 5) State.reset = .next t ∧ t.pc ≠ State.reset.pc) ∧
    ∃ t, exec (.skp 5) { State.reset with keys := 1#16 } = .next t ∧ t.pc ≠ State.reset.pc :=
  ⟨⟨_, rfl, by decide⟩, ⟨_, rfl, by decide⟩, ⟨_, rfl, by decide⟩⟩

theorem witness_LogicClearsFlagThenCombines : State.reset.q.logicKeepFlag = false ∧ (1 : Reg) ≠ VF := by decide

theorem witness_LogicKeepsFlagUnderQuirk : allQuirks.q.logicKeepFlag = true := by decide

/-- The clause that leaves destination 15 out, for the five instructions of R146 to R150. -/
theorem witness_destination_not_flag : (14 : Reg) ≠ VF := by decide

theorem witness_ReverseSubtractUnderEitherDestination :
    ((3 : Reg) = match SubnDest.x with | .x => 3 | .y => 4) ∧ ((4 : Reg) = match SubnDest.y with | .x => 3 | .y => 4) ∧
    (3 : Reg) ≠ VF ∧ (4 : Reg) ≠ VF := by decide

theorem witness_ShiftsByOneAndKeepsLostBit :
    4 = (if (withRegs [(0, 0x81), (1, 4)]).q.shift = true then readV (withRegs [(0, 0x81), (1, 4)]) 0
      else readV (withRegs [(0, 0x81), (1, 4)]) 1).toNat ∧
    0 = (if allQuirks.q.shift = true then readV allQuirks 0 else readV allQuirks 1).toNat := by decide

theorem witness_FlagChangesOnlyByItsWriters : ∃ t, exec (.addReg 0 1) (withRegs [(0, 0xFF), (1, 1)]) = .next t ∧
    readV t VF ≠ readV (withRegs [(0, 0xFF), (1, 1)]) VF ∧ WritesFlag (.addReg 0 1) (withRegs [(0, 0xFF), (1, 1)]) ∧
    ¬ NamesDestination (.addReg 0 1) VF := ⟨_, rfl, by decide, trivial, (by decide : ¬ VF = 0)⟩

theorem witness_AddToIndexWrapsAndFlags :
    allQuirks.q.dontIndexOverflow = true ∧ State.reset.q.dontIndexOverflow = false := by decide

theorem witness_BcdStoresThreeDigits : (withI 4093#16).i.toNat ≤ 4093 ∧ (withI 4094#16).i.toNat > 4093 := by decide

/-- For the store and for the load. -/
theorem witness_block_transfers : (withI 4095#16).i.toNat + (0 : Reg).val ≤ 4095 ∧
    (withI 4095#16).i.toNat + (1 : Reg).val > 4095 ∧ (withI 4080#16).i.toNat + (15 : Reg).val ≤ 4095 ∧
    (withI 4081#16).i.toNat + (15 : Reg).val > 4095 := by decide

theorem witness_LoadReadsRegistersUpward_above : ¬ (15 : Reg) ≤ 14 ∧ (14 : Reg) ≤ 14 := by decide

theorem witness_StoreThenLoadRestoresRegisters : ∃ t r : State, exec (.storeRegs 2) (withI 0x310#16) = .next t ∧
    r.mem = t.mem ∧ r.i = (withI 0x310#16).i :=
  ⟨_, { withI 0x310#16 with mem := (match exec (.storeRegs 2) (withI 0x310#16) with | .next t => t.mem | _ => []) },
    rfl, rfl, rfl⟩

theorem witness_ReadReturnsLatestWrite : ∃ m', memWrite [] 4095 0x12#8 = .ok m' := ⟨_, rfl⟩

/-- Program P6: `LD [I], V1` writes 12 08 over the word at `PC`. -/
theorem witness_StoreIsSeenByNextFetch :
    ∃ t, exec (.storeRegs 1) { withRegs [(0, 0x12), (1, 0x08)] with i := 0x208#16, pc := 0x208#16 } = .next t ∧
    (1 : Reg).val = (0 : Reg).val + 1 ∧ (1 : Reg) ≤ 1 ∧ (0x208#16).toNat = (0x208#16).toNat + (0 : Reg).val ∧
    (withRegs [(0, 0x12), (1, 0x08)]).fault = none ∧
    decode [readV (withRegs [(0, 0x12), (1, 0x08)]) 0, readV (withRegs [(0, 0x12), (1, 0x08)]) 1] =
      .ok (.jp 0x208#12, []) :=
  ⟨_, rfl, by decide, by decide, by decide, by decide, by decide⟩

theorem witness_DrawTogglesExactlyTheSpritePixels :
    ((0#4).toNat = 0 ∨ (withI 0xFFFF#16).i.toNat + (0#4).toNat ≤ 4096) ∧
    ((15#4).toNat = 0 ∨ (withI 4081#16).i.toNat + (15#4).toNat ≤ 4096) := by decide

theorem witness_DrawPastEndFaults : (1#4).toNat ≥ 1 ∧ (withI 4096#16).i.toNat + (1#4).toNat - 1 > 4095 ∧
    (15#4).toNat ≥ 1 ∧ (withI 4082#16).i.toNat + (15#4).toNat - 1 > 4095 ∧ (0#4).toNat = 0 := by decide

theorem witness_DrawTwiceErases : ∃ t r : State, exec (.drw 0 1 5#4) (withI 0x50#16) = .next t ∧ r.fb = t.fb ∧ r.mem = t.mem ∧
    r.i = (withI 0x50#16).i ∧ readV r 0 = readV (withI 0x50#16) 0 ∧ readV r 1 = readV (withI 0x50#16) 1 := by
  have h := exec_drw_next (s := withI 0x50#16) 0 1 (n := 5#4) (by decide)
  exact ⟨_, _, h, rfl, rfl, rfl, (readV_writeV _ _ _ _).trans (if_neg (by decide)), (readV_writeV _ _ _ _).trans (if_neg (by decide))⟩

theorem witness_FramebufferBytesAreRgbTriplets : 0 < 3 ∧ 2 < 3 := by decide

theorem witness_KeySkipsTestCurrentState : 15 = (readV (withRegs [(5, 15)]) 5).toNat ∧ 15 ≤ 15 ∧
    16 = (readV (withRegs [(5, 16)]) 5).toNat ∧ 16 > 15 := by decide

theorem witness_WaitForKey : State.reset.keys = 0#16 ∧
    ({ State.reset with keys := 0x8000#16 } : State).keys ≠ 0#16 := by decide

theorem witness_WaitingStepChangesNothing :
    (withWord State.reset 0xF5 0x0A).fault = none ∧ (withWord State.reset 0xF5 0x0A).pc.toNat ≤ 4094 ∧
    decodeWord (fetchWord (withWord State.reset 0xF5 0x0A).mem (withWord State.reset 0xF5 0x0A).pc.toNat) =
      .ok (.ldVxK 5) ∧ (withWord State.reset 0xF5 0x0A).keys = 0#16 := by decide

theorem witness_EachElementHasItsWriters :
    (∃ t, exec (.call 0x300#12) State.reset = .next t ∧ t.stack ≠ State.reset.stack) ∧
    (∃ t, exec (.ldDtVx 0) (withRegs [(0, 1)]) = .next t ∧ t.dt ≠ (withRegs [(0, 1)]).dt) ∧
    (∃ t, exec (.ldStVx 0) (withRegs [(0, 1)]) = .next t ∧ t.st ≠ (withRegs [(0, 1)]).st) ∧
    (∃ t, exec .cls State.reset = .next t ∧ t.upd ≠ State.reset.upd) ∧
    (∃ t, exec (.storeRegs 0) (withRegs [(0, 1)]) = .next t ∧ Memory.read t.mem 0 ≠ Memory.read (withRegs [(0, 1)]).mem 0) ∧
    (∃ t, exec (.ldI 0x300#12) State.reset = .next t ∧ t.i ≠ State.reset.i) :=
  ⟨⟨_, rfl, by decide⟩, ⟨_, rfl, by decide⟩, ⟨_, rfl, by decide⟩, ⟨_, rfl, by decide⟩, ⟨_, rfl, by decide⟩,
    ⟨_, rfl, by decide⟩⟩

theorem witness_EachElement_registers :
    (∃ t, exec (.ldImm 14 1#8) State.reset = .next t ∧ readV t 14 ≠ readV State.reset 14) ∧
    (∃ t, exec (.addReg 0 1) (withRegs [(0, 0xFF), (1, 1)]) = .next t ∧
      readV t VF ≠ readV (withRegs [(0, 0xFF), (1, 1)]) VF) ∧
    (∃ t, exec (.skp 5) { State.reset with keys := 1#16 } = .next t ∧ t.pc ≠ State.reset.pc) ∧
    ∃ t, exec (.rnd 1 0#8) State.reset = .next t ∧ t.draws ≠ State.reset.draws :=
  ⟨⟨_, rfl, by decide⟩, ⟨_, rfl, by decide⟩, ⟨_, rfl, by decide⟩, ⟨_, rfl, by decide⟩⟩

theorem witness_EachElement_upd : ∃ t, exec (.jp 0#12) { State.reset with upd := true } = .next t ∧
    ({ State.reset with upd := true } : State).upd = true := ⟨_, rfl, rfl⟩

theorem witness_BootGivesResetStateWithImage : (List.replicate 3584 (0#8 : Byte)).length ≤ 3584 ∧
    (List.replicate 3585 (0#8 : Byte)).length > 3584 := by
  rw [List.length_replicate, List.length_replicate]; decide

theorem witness_Boot_clauses : 1 < ([0x12#8, 0x00#8] : List Byte).length ∧ 0x1FF < 0x200 ∧
    0x202 ≥ 0x200 + ([0x12#8, 0x00#8] : List Byte).length := by decide

theorem witness_ResetMemoryHoldsGlyphs : 0x4F < 0x50 ∧ 0xA0 ≥ 0xA0 := by decide

theorem witness_ParkedStepChangesNothing : Parked (withWord State.reset 0x12 0x00) ∧
    Parked (withWord { State.reset with pc := 0xFFE#16 } 0x1F 0xFE) := by unfold Parked; decide

theorem witness_StepKeepsMemoryCanonical : MemoryCanonical (withWord State.reset 0xF0 0x55) ∧
    ∃ t, step (withWord State.reset 0xF0 0x55) = .next t :=
  ⟨by unfold MemoryCanonical; decide, next_of_goesTo (p := fun _ => true) (by decide)⟩

theorem witness_StepKeepsPcBounded : PcBounded (withWord State.reset 0x23 0x00) ∧
    ∃ t, step (withWord State.reset 0x23 0x00) = .next t :=
  ⟨⟨by decide, fun _ h => nomatch h⟩, next_of_goesTo (p := fun _ => true) (by decide)⟩

theorem witness_BootMeetsInvariants : ∃ s, boot Quirks.allOff [0x60#8, 0x0A#8] = some s := ⟨_, rfl⟩

/-- The state a boot with the image `60 0A` gives. -/
def booted : State := { State.reset with mem := loadImage [] 0x200 [0x60#8, 0x0A#8] }

theorem witness_ReachableStatesAreSoundAndProgress : Reachable booted ∧ booted.fault = none ∧ CanFetch booted ∧
    decodeWord (fetchWord booted.mem booted.pc.toNat) = .ok (.ldImm 0 0x0A#8) ∧
    ¬ OwnCheckFails (.ldImm 0 0x0A#8) { booted with pc := 0x202#16 } :=
  ⟨.boot Quirks.allOff [0x60#8, 0x0A#8] booted rfl, rfl, by unfold CanFetch IllegalWord; decide, by decide, id⟩

/-- A state reached by a step and an event after it. -/
theorem witness_Reachable_input : ∃ t u, deliver .step booted = some t ∧ deliver .tick60 t = some u ∧ Reachable u :=
  ⟨_, _, rfl, rfl, .input .tick60 _ _ (.input .step _ _ (.boot Quirks.allOff [0x60#8, 0x0A#8] booted rfl) rfl) rfl⟩

end Sys2Proof.Tests
end

namespace Sys2Proof.Machine

/-! ## Decode: the word of two bytes, and the words that do not decode -/

/-- Two bytes that decode with nothing left over are the word that decodes (R64, R65). -/
theorem decodeWord_of_decode_pair {hi lo : Byte} {i : Instr} (h : decode [hi, lo] = .ok (i, [])) :
    decodeWord (wordOfBytes hi lo) = .ok i := by
  rcases hd : decodeWord (wordOfBytes hi lo) with e | j
  · simp [decode, hd] at h
  · simpa [decode, hd] using h

theorem opClass_eq_of_toNat {w : Word} {c : Nat} (h : (opClass w).toNat = c) : opClass w = BitVec.ofNat 4 c := by
  rw [← h, BitVec.ofNat_toNat, BitVec.setWidth_eq]

theorem illegal_of_decodeClass0_error {w : Word} {e : DecodeError} (hc : opClass w = 0x0#4)
    (h : decodeClass0 w = .error e) : IllegalWord w := by
  simp only [decodeClass0] at h
  split at h
  · cases h
  · split at h
    · cases h
    · rename_i hcls hret
      exact .inl ⟨hc, hcls, hret⟩

theorem illegal_of_decodeClass5_error {w : Word} {e : DecodeError} (hc : opClass w = 0x5#4)
    (h : decodeClass5 w = .error e) : IllegalWord w := by
  simp only [decodeClass5] at h
  split at h
  · cases h
  · rename_i hn
    exact .inr (.inl ⟨hc, hn⟩)

/-- The sub-opcodes of class 8 that name no instruction are the seven R95 lists. -/
theorem illegal_of_decodeClass8_error {w : Word} {e : DecodeError} (hc : opClass w = 0x8#4)
    (h : decodeClass8 w = .error e) : IllegalWord w := by
  refine .inr (.inr (.inl ⟨hc, ?_⟩))
  unfold decodeClass8 at h
  split at h
  case h_10 =>
    have := (nField w).isLt
    simp only [List.mem_cons, List.not_mem_nil, or_false, ← BitVec.toNat_inj, BitVec.toNat_ofNat, imp_false] at *
    omega
  all_goals cases h

theorem illegal_of_decodeClassE_error {w : Word} {e : DecodeError} (hc : opClass w = 0xE#4)
    (h : decodeClassE w = .error e) : IllegalWord w := by
  refine .inr (.inr (.inr (.inl ⟨hc, fun hm => ?_⟩)))
  unfold decodeClassE at h
  simp only [List.mem_cons, List.not_mem_nil, or_false] at hm
  rcases hm with hn | hn <;> simp [hn] at h

theorem illegal_of_decodeClassF_error {w : Word} {e : DecodeError} (hc : opClass w = 0xF#4)
    (h : decodeClassF w = .error e) : IllegalWord w := by
  refine .inr (.inr (.inr (.inr ⟨hc, fun hm => ?_⟩)))
  unfold decodeClassF at h
  simp only [List.mem_cons, List.not_mem_nil, or_false] at hm
  rcases hm with hn | hn | hn | hn | hn | hn | hn | hn | hn <;> simp [hn] at h

/-- A word that does not decode is one of those R95 lists: only the classes 0, 5, 8, E and F hold any. -/
theorem illegal_of_decodeWord_error {w : Word} {e : DecodeError} (h : decodeWord w = .error e) : IllegalWord w := by
  unfold decodeWord at h
  split at h
  case h_1 hc => exact illegal_of_decodeClass0_error (opClass_eq_of_toNat hc) h
  case h_6 hc => exact illegal_of_decodeClass5_error (opClass_eq_of_toNat hc) h
  case h_9 hc => exact illegal_of_decodeClass8_error (opClass_eq_of_toNat hc) h
  case h_15 hc => exact illegal_of_decodeClassE_error (opClass_eq_of_toNat hc) h
  case h_16 hc => exact illegal_of_decodeClassF_error (opClass_eq_of_toNat hc) h
  case h_17 =>
    have := (opClass w).isLt
    simp only [imp_false] at *
    omega
  all_goals cases h

theorem decodeWord_ok_of_not_illegal {w : Word} (h : ¬ IllegalWord w) : ∃ i, decodeWord w = .ok i := by
  rcases hd : decodeWord w with e | i
  · exact absurd (illegal_of_decodeWord_error hd) h
  · exact ⟨i, rfl⟩

/-! ## A meaning completes or faults, as its own check says -/

/-- The state after the fetch, in the two spellings of the statements and of the model. -/
theorem withPcAdvanced_eq_setPc (s : State) :
    ({ s with pc := BitVec.ofNat 16 (s.pc.toNat + 2) } : State) = s.setPc (s.pc + 2#16) := by
  simp [State.setPc, BitVec.ofNat_add]

/-- An instruction whose own check passes completes (R230, R233, R235). -/
theorem exec_next_of_check {i : Instr} {s : State} (h : ¬ OwnCheckFails i s) : ∃ t, exec i s = .next t := by
  cases i
  case ret =>
    rcases pop_cases s with ⟨hs, -⟩ | ⟨l, a, hs, -⟩
    · exact absurd hs h
    · exact ⟨_, exec_ret_next hs⟩
  case skp x => exact ⟨_, exec_skp_next (Nat.not_lt.1 h)⟩
  case sknp x => exact ⟨_, exec_sknp_next (Nat.not_lt.1 h)⟩
  case drw x y n =>
    simp only [OwnCheckFails] at h
    exact ⟨_, exec_drw_next x y (by omega)⟩
  case ldB x =>
    obtain ⟨m, -, hm⟩ := exec_ldB_next x (Nat.not_lt.1 h)
    exact ⟨_, hm⟩
  case storeRegs x =>
    obtain ⟨m, -, hm⟩ := exec_storeRegs_next (Nat.not_lt.1 h)
    exact ⟨_, hm⟩
  case loadRegs x => exact ⟨_, exec_loadRegs_next (Nat.not_lt.1 h)⟩
  case addI x => exact ⟨_, exec_addI s x⟩
  case ldVxK x =>
    by_cases hk : s.keys = 0#16
    · exact ⟨_, exec_ldVxK_wait x hk⟩
    · obtain ⟨k, -, -, -, hx⟩ := exec_ldVxK_key x hk
      exact ⟨_, hx⟩
  all_goals exact ⟨_, rfl⟩

/-- An instruction whose own check fails faults (R232 to R234). -/
theorem exec_fault_of_check {i : Instr} {s : State} (h : OwnCheckFails i s) : ∃ f, exec i s = .fault f := by
  cases i
  case ret => exact ⟨_, exec_ret_fault h⟩
  case skp x => exact ⟨_, exec_skp_fault h⟩
  case sknp x => exact ⟨_, exec_sknp_fault h⟩
  case drw x y n =>
    obtain ⟨hn, hi⟩ := h
    exact ⟨_, exec_drw_fault x y (by omega)⟩
  case ldB x => exact ⟨_, exec_ldB_fault x h⟩
  case storeRegs x => exact ⟨_, exec_storeRegs_fault h⟩
  case loadRegs x => exact ⟨_, exec_loadRegs_fault h⟩
  all_goals exact h.elim

/-- No arm of `exec` is refused. -/
theorem exec_ne_refused (i : Instr) (s : State) (r : Refusal) : exec i s ≠ .refused r := by
  by_cases h : OwnCheckFails i s
  · obtain ⟨f, hf⟩ := exec_fault_of_check h
    simp [hf]
  · obtain ⟨t, ht⟩ := exec_next_of_check h
    simp [ht]

theorem step_ne_refused (s : State) (r : Refusal) : step s ≠ .refused r := by
  rcases step_cases s with ⟨f, -, e⟩ | ⟨-, -, e⟩ | ⟨-, -, -, e⟩ | ⟨-, -, i, -, e⟩
  · simp [e]
  · simp [e]
  · simp [e]
  · rw [e]
    exact exec_ne_refused _ _ _

/-! ## What an instruction does to memory, `PC` and the stack -/

theorem logicOp_mem (f : Byte → Byte → Byte) (x y : Reg) (s : State) : (logicOp f x y s).mem = s.mem := by
  unfold logicOp logicClear
  split <;> rfl

/-- Memory after an instruction: as before, or written by one transfer of bytes (R66). -/
theorem exec_mem_cases {i : Instr} {s t : State} (h : exec i s = .next t) :
    t.mem = s.mem ∨ ∃ a bs, writeBytes s.mem a bs = .ok t.mem := by
  cases i
  case ldB x =>
    obtain ⟨-, m, hm, rfl⟩ := exec_ldB_inv h
    exact .inr ⟨_, _, hm⟩
  case storeRegs x =>
    obtain ⟨-, m, hm, rfl⟩ := exec_storeRegs_inv h
    exact .inr ⟨_, _, hm⟩
  all_goals left
  case ret => obtain ⟨l, a, -, rfl⟩ := exec_ret_inv h; rfl
  case skp x => obtain ⟨-, rfl⟩ := exec_skp_inv h; simp [skipIf_eq]
  case sknp x => obtain ⟨-, rfl⟩ := exec_sknp_inv h; simp [skipIf_eq]
  case ldVxK x => rcases exec_ldVxK_inv h with ⟨-, rfl⟩ | ⟨-, k, -, -, -, rfl⟩ <;> rfl
  case loadRegs x => obtain ⟨-, rfl⟩ := exec_loadRegs_inv h; simp
  case drw x y n => obtain ⟨-, rfl⟩ := exec_drw_inv h; rfl
  case addI x => rw [exec_addI] at h; cases h; split <;> rfl
  all_goals cases h
  case orReg | andReg | xorReg => exact logicOp_mem _ _ _ _
  case seImm | sneImm | seReg | sneReg => simp [skipIf_eq]
  all_goals rfl

theorem pc_notMem_footprint {i : Instr} (s : State) (h : ¬ MovesPc i) : Element.pc ∉ footprint i s := by
  cases i
  case orReg | andReg | xorReg | addI => simp only [footprint]; split <;> simp
  case ldB | storeRegs => simp [footprint, mem_bytesAt]
  case ret | jp | call | seImm | sneImm | seReg | sneReg | jpV0 | skp | sknp | ldVxK => exact absurd trivial h
  all_goals simp [footprint]

theorem stack_notMem_footprint {i : Instr} (s : State) (hr : i ≠ .ret) (hc : ∀ nnn, i ≠ .call nnn) :
    Element.stack ∉ footprint i s := by
  cases i
  case ret => exact absurd rfl hr
  case call nnn => exact absurd rfl (hc nnn)
  case orReg | andReg | xorReg | addI | ldVxK => simp only [footprint]; split <;> simp
  case ldB | storeRegs => simp [footprint, mem_bytesAt]
  all_goals simp [footprint]

/-- Every stack entry after an instruction was there before, or is the `PC` a `CALL` pushes (R28, R122). -/
theorem mem_stack_of_exec {i : Instr} {s t : State} (h : exec i s = .next t) {a : Word} (ha : a ∈ t.stack) :
    a ∈ s.stack ∨ a = s.pc := by
  by_cases hr : i = .ret
  · subst hr
    obtain ⟨l, b, hs, rfl⟩ := exec_ret_inv h
    exact .inl (hs ▸ List.mem_append_left _ ha)
  · by_cases hc : ∃ nnn, i = .call nnn
    · obtain ⟨nnn, rfl⟩ := hc
      cases h
      simpa [push] using ha
    · rw [(exec_changes h).stack (stack_notMem_footprint s hr (fun nnn e => hc ⟨nnn, e⟩))] at ha
      exact .inl ha

theorem addrOf_toNat (nnn : Addr12) : (addrOf nnn).toNat = nnn.toNat := by
  have := nnn.isLt
  simp only [addrOf, BitVec.truncate_eq_setWidth, BitVec.toNat_setWidth]
  omega

/-- The target of `JP V0, nnn` is at most `0xFFF + 0xFF` (R25, R128). -/
theorem jumpOffsetTarget_le (nnn : Addr12) (b : Byte) : (addrOf nnn + b.zeroExtend 16).toNat ≤ 0x10FE := by
  have := nnn.isLt
  have := b.isLt
  simp only [BitVec.toNat_add, addrOf_toNat, BitVec.truncate_eq_setWidth, BitVec.toNat_setWidth]
  omega

theorem skipIf_pc_cases (c : Bool) (s : State) : (skipIf c s).pc = s.pc ∨ (skipIf c s).pc = s.pc + 2#16 := by
  cases c <;> simp [skipIf_eq]

/-- Where `PC` is after an instruction: at the next instruction, past a skipped one, back for `LD Vx, K`, at a return
address of the stack, or at a jump target (R25). -/
theorem exec_pc_cases {i : Instr} {s t : State} (h : exec i s = .next t) :
    (t.pc = s.pc ∨ t.pc = s.pc + 2#16) ∨ t.pc = s.pc - 2#16 ∨ t.pc ∈ s.stack ∨ t.pc.toNat ≤ 0x10FE := by
  by_cases hm : MovesPc i
  · cases i
    case seImm | sneImm | seReg | sneReg => cases h; exact .inl (skipIf_pc_cases _ _)
    case skp x => obtain ⟨-, rfl⟩ := exec_skp_inv h; exact .inl (skipIf_pc_cases _ _)
    case sknp x => obtain ⟨-, rfl⟩ := exec_sknp_inv h; exact .inl (skipIf_pc_cases _ _)
    case ldVxK x => rcases exec_ldVxK_inv h with ⟨-, rfl⟩ | ⟨-, k, -, -, -, rfl⟩ <;> simp
    case ret =>
      obtain ⟨l, a, hs, rfl⟩ := exec_ret_inv h
      simp [hs]
    case jp nnn | call nnn =>
      cases h
      have := nnn.isLt
      simp only [setPc_pc, addrOf_toNat]
      omega
    case jpV0 nnn x =>
      cases h
      exact .inr (.inr (.inr (jumpOffsetTarget_le _ _)))
    all_goals exact hm.elim
  · exact .inl (.inl ((exec_changes h).pc (pc_notMem_footprint s hm)))

/-! ## The invariants: kept by every step and every event, met after every boot -/

theorem exec_keeps_memoryCanonical {i : Instr} {s t : State} (hs : MemoryCanonical s) (h : exec i s = .next t) :
    MemoryCanonical t := by
  unfold MemoryCanonical at hs ⊢
  rcases exec_mem_cases h with e | ⟨a, bs, e⟩
  · rwa [e]
  · exact wf_writeBytes e hs

theorem step_keeps_memoryCanonical {s t : State} (hs : MemoryCanonical s) (h : step s = .next t) :
    MemoryCanonical t := by
  obtain ⟨-, -, i, -, hx⟩ := step_next h
  exact exec_keeps_memoryCanonical (s := s.setPc (s.pc + 2#16)) hs hx

/-- From a `PC` at or below 4094 the next `PC` stays under the bound of R25, and a `CALL` pushes at most 4096. -/
theorem step_keeps_pcBounded {s t : State} (hs : PcBounded s) (h : step s = .next t) : PcBounded t := by
  obtain ⟨-, hp, i, -, hx⟩ := step_next h
  obtain ⟨-, hstack⟩ := hs
  have hadv : (s.pc + 2#16).toNat = s.pc.toNat + 2 := by
    rw [BitVec.toNat_add, BitVec.toNat_ofNat]
    omega
  constructor
  · rcases exec_pc_cases hx with (e | e) | e | e | e
    · rw [e, setPc_pc]
      omega
    · rw [e, setPc_pc, BitVec.toNat_add, hadv, BitVec.toNat_ofNat]
      omega
    · rw [e, setPc_pc, BitVec.add_sub_cancel]
      omega
    · have := hstack _ e
      omega
    · exact e
  · intro a ha
    rcases mem_stack_of_exec hx ha with e | rfl
    · exact hstack a e
    · rw [setPc_pc]
      omega

theorem boot_invariants {q : Quirks} {image : List Byte} {s : State} (h : boot q image = some s) :
    MemoryCanonical s ∧ PcBounded s := by
  unfold boot at h
  split at h
  · rename_i hlen
    cases h
    refine ⟨wf_loadImage image [] Config.progStart ?_ (by simp [Memory.wf]), ?_, by simp [State.reset]⟩
    · simp only [Config.maxImage, Config.memSize, Config.progStart] at hlen ⊢
      omega
    · exact (by decide : State.reset.pc.toNat ≤ 0x10FE)
  · cases h

/-- One STEP keeps both invariants, also when it faults: a fault changes only `FAULT` (R237). -/
theorem stepState_keeps_invariants {s : State} (hs : MemoryCanonical s ∧ PcBounded s) :
    MemoryCanonical (stepState s) ∧ PcBounded (stepState s) := by
  unfold stepState
  split
  · rename_i t h
    exact ⟨step_keeps_memoryCanonical hs.1 h, step_keeps_pcBounded hs.2 h⟩
  · exact hs
  · exact hs

theorem deliver_keeps_invariants {a : Input} {s t : State} (hs : MemoryCanonical s ∧ PcBounded s)
    (h : deliver a s = some t) : MemoryCanonical t ∧ PcBounded t := by
  cases a with
  | step => cases h; exact stepState_keeps_invariants hs
  | tick60 | keySample m | presentAck => cases h; exact hs
  | reset q image =>
    obtain ⟨u, hu, rfl⟩ := Option.map_eq_some_iff.1 h
    exact boot_invariants (s := u) hu

theorem reachable_invariants {s : State} (h : Reachable s) : MemoryCanonical s ∧ PcBounded s := by
  induction h with
  | boot q image s hb => exact boot_invariants hb
  | input a s t hs hd ih => exact deliver_keeps_invariants ih hd

/-! ## The statements -/

/-- Settles O6: the two bytes are the fetched word, and the advanced state is the one `step` runs the instruction on. -/
theorem stepRunsDecodedInstruction : Obligations.StepRunsDecodedInstruction := by
  intro s i hf hp hd
  rw [step_eq_exec hf hp (decodeWord_of_decode_pair hd), withPcAdvanced_eq_setPc]

/-- Settles O60: the invariants by induction over the inputs, progress because a legal word decodes and an instruction
whose own check passes completes. -/
theorem reachableStatesAreSoundAndProgress : Obligations.ReachableStatesAreSoundAndProgress := by
  intro s hs
  refine ⟨step_ne_refused s, fun _ => reachable_invariants hs, ?_⟩
  rintro ⟨hf, hp, hw⟩
  obtain ⟨i, hi⟩ := decodeWord_ok_of_not_illegal hw
  refine ⟨i, hi, fun hc => ?_⟩
  rw [step_eq_exec hf hp hi, ← withPcAdvanced_eq_setPc]
  exact exec_next_of_check hc

end Sys2Proof.Machine

namespace Sys2Proof.Machine

/-! ## Owners: the instructions each element of the state belongs to -/

/-- `i`, run on `s`, is an instruction the element belongs to (R21, R22, R25, R27, R28, R30, R32, R34, R66; log 3 for
`draws`). A block transfer owns `I` here in both settings of its quirk. -/
def Owns (i : Instr) (s : State) : Element → Prop
  | .v r => NamesDestination i r ∨ (r = VF ∧ WritesFlag i s)
  | .pc => MovesPc i
  | .i => (∃ nnn, i = .ldI nnn) ∨ (∃ x, i = .addI x) ∨ (∃ x, i = .ldF x) ∨ ∃ x, i = .storeRegs x ∨ i = .loadRegs x
  | .stack => i = .ret ∨ ∃ nnn, i = .call nnn
  | .dt => ∃ x, i = .ldDtVx x
  | .st => ∃ x, i = .ldStVx x
  | .mem _ => (∃ x, i = .ldB x) ∨ ∃ x, i = .storeRegs x
  | .fb | .upd => i = .cls ∨ ∃ x y n, i = .drw x y n
  | .keys | .keysPrev | .q | .fault => False
  | .draws => ∃ x nn, i = .rnd x nn

/-- Everything in the footprint of an instruction belongs to it. -/
theorem owns_of_mem_footprint {i : Instr} {s : State} : ∀ e ∈ footprint i s, Owns i s e := by
  cases i
  case orReg | andReg | xorReg =>
    by_cases hq : s.q.logicKeepFlag = true <;> simp [footprint, hq, Owns, NamesDestination, WritesFlag]
  case addI => by_cases hq : s.q.dontIndexOverflow = true <;> simp [footprint, hq, Owns, WritesFlag]
  case ldVxK => by_cases hk : s.keys = 0#16 <;> simp [footprint, hk, Owns, MovesPc, NamesDestination]
  case ldB | storeRegs => simp [footprint, bytesAt, Owns]
  all_goals simp [footprint, Owns, MovesPc, NamesDestination, WritesFlag]

/-- `CLS` and `DRW` leave `UPD` set, whatever they draw (R34). -/
theorem exec_sets_upd {i : Instr} {s t : State} (h : exec i s = .next t) (ho : Owns i s .upd) : t.upd = true := by
  rcases ho with rfl | ⟨x, y, n, rfl⟩
  · cases h; rfl
  · obtain ⟨-, rfl⟩ := exec_drw_inv h; rfl

theorem indexAfterBlock_of_storeLoadMem {s : State} (x : Reg) (hq : s.q.storeLoadMem = true) :
    indexAfterBlock s x = s.i := if_pos hq

/-- With `Q.StoreLoadMem` set a block transfer leaves `I` (R175, R176). -/
theorem exec_block_i {i : Instr} {s t : State} (h : exec i s = .next t) (hq : s.q.storeLoadMem = true)
    (hi : ∃ x, i = .storeRegs x ∨ i = .loadRegs x) : t.i = s.i := by
  obtain ⟨x, rfl | rfl⟩ := hi
  · obtain ⟨-, m, -, rfl⟩ := exec_storeRegs_inv h
    exact indexAfterBlock_of_storeLoadMem x hq
  · obtain ⟨-, rfl⟩ := exec_loadRegs_inv h
    exact indexAfterBlock_of_storeLoadMem x hq

/-- A register that changed belongs to the instruction (R21, R22). -/
theorem owns_of_readV_ne {i : Instr} {s t : State} (h : exec i s = .next t) {r : Reg} (hne : readV t r ≠ readV s r) :
    NamesDestination i r ∨ (r = VF ∧ WritesFlag i s) :=
  owns_of_mem_footprint _ (not_imp_comm.1 ((exec_changes h).v r) hne)

/-- Only an instruction of R25 takes `PC` off the next instruction. -/
theorem movesPc_of_pc_ne {i : Instr} {s t : State} (h : exec i s = .next t) (hne : t.pc ≠ s.pc) : MovesPc i :=
  owns_of_mem_footprint _ (not_imp_comm.1 (exec_changes h).pc hne)

/-! ## The flag: what its writers leave in it -/

theorem readV_writeV_self (s : State) (x : Reg) (b : Byte) : readV (writeV s x b) x = b := by simp

/-- A logic operation into another register leaves the flag cleared, when it writes it (R143). -/
theorem readV_logicOp_flag {s : State} (f : Byte → Byte → Byte) {x : Reg} (y : Reg)
    (hq : s.q.logicKeepFlag = false) (hx : VF ≠ x) : readV (logicOp f x y s) VF = flagByte false := by
  simp [logicOp, logicClear, hq, hx, writeFlag_eq]

/-- An instruction that writes the flag, and does not name register 15, leaves the byte of a truth value there (R22). -/
theorem exec_flag {i : Instr} {s t : State} (h : exec i s = .next t) (hw : WritesFlag i s)
    (hd : ¬ NamesDestination i VF) : ∃ c, readV t VF = flagByte c := by
  cases i
  case orReg | andReg | xorReg => cases h; exact ⟨_, readV_logicOp_flag _ _ hw hd⟩
  case addReg | subReg | subnReg | shrReg | shlReg => cases h; exact ⟨_, readV_writeV_self _ _ _⟩
  case drw x y n =>
    obtain ⟨-, rfl⟩ := exec_drw_inv h
    exact ⟨_, readV_writeV_self _ _ _⟩
  case addI x =>
    have hq : s.q.dontIndexOverflow = true := hw
    rw [exec_addI, if_pos hq] at h
    cases h
    exact ⟨_, readV_writeV_self _ _ _⟩
  all_goals exact hw.elim

/-! ## The byte view of the framebuffer -/

theorem fbytes_length (f : Framebuffer) : (fbytes f).length = 64 * 32 * 3 := by simp [fbytes, Config.height, Config.width]

/-- Each channel of the pixel (row, col) is the pixel (R33). -/
theorem fbyte_channel (f : Framebuffer) (row : Fin Config.height) (col : Fin Config.width) {ch : Nat} (hch : ch < 3) :
    fbyte f ((row.val * 64 + col.val) * 3 + ch) = if Framebuffer.pixel f row col = true then 255#8 else 0#8 := by
  have hrow := row.isLt
  have hcol := col.isLt
  have hpix : ((row.val * 64 + col.val) * 3 + ch) / 3 = row.val * 64 + col.val := by omega
  have hr : Fin.ofNat Config.height ((row.val * 64 + col.val) / Config.width) = row :=
    Fin.ext (by simp only [Fin.val_ofNat, Config.height, Config.width] at *; omega)
  have hc : Fin.ofNat Config.width (row.val * 64 + col.val) = col :=
    Fin.ext (by simp only [Fin.val_ofNat, Config.width] at *; omega)
  rw [fbyte, hpix, hr, hc]

/-! ## Reset memory -/

theorem read_reset (a : Nat) : Memory.read State.reset.mem a = resetByte a := rfl

/-- Outside the glyph table the reset byte is 0 (R61). -/
theorem resetByte_outside_glyphs {a : Nat} (h : a < 0x50 ∨ a ≥ 0xA0) : resetByte a = 0#8 := by
  unfold resetByte
  split
  · rename_i hle
    have hlen : glyphTable.length ≤ a - Config.glyphBase := by
      have : glyphTable.length = 80 := rfl
      simp only [Config.glyphBase] at hle ⊢
      omega
    rw [List.getD_eq_getElem?_getD, List.getElem?_eq_none hlen]
    rfl
  · rfl

/-! ## The loader and the reset registers -/

/-- A byte of the loaded image (R272). -/
theorem read_loadImage_inside {bs : List Byte} (m : Memory) (a : Nat) {j : Nat} (h : j < bs.length) :
    Memory.read (loadImage m a bs) (a + j) = bs[j] := by
  simp [read_loadImage, h]

/-- The loader writes no byte outside the image (R272). -/
theorem read_loadImage_outside {bs : List Byte} (m : Memory) {a c : Nat} (h : c < a ∨ c ≥ a + bs.length) :
    Memory.read (loadImage m a bs) c = Memory.read m c := by
  rw [read_loadImage]
  split
  · rw [List.getD_eq_getElem?_getD, List.getElem?_eq_none (by omega), Option.getD_none]
  · rfl

theorem boot_of_fits (q : Quirks) {image : List Byte} (h : image.length ≤ 3584) :
    boot q image = some { State.reset with q := q, mem := loadImage [] Config.progStart image } :=
  if_pos h

theorem boot_of_too_long (q : Quirks) {image : List Byte} (h : image.length > 3584) : boot q image = none :=
  if_neg (Nat.not_le.2 h)

theorem boot_fault {q : Quirks} {image : List Byte} {s : State} (h : boot q image = some s) : s.fault = none := by
  rcases Nat.lt_or_ge 3584 image.length with hlen | hlen
  · rw [boot_of_too_long q hlen] at h; cases h
  · rw [boot_of_fits q hlen] at h; cases h; rfl

/-! ## Inputs to a machine that has faulted -/

/-- A STEP leaves a faulted core as it is: it latches the fault it holds (R39, R236). -/
theorem stepState_of_faulted {s : State} {f : Fault} (h : s.fault = some f) : stepState s = s := by
  rw [stepState, step_faulted h]
  exact congrArg (fun g => ({ s with fault := g } : State)) h.symm

/-- Only a reset ends a fault (R239). -/
theorem deliver_keeps_fault {s t : State} {f : Fault} {a : Input} (hf : s.fault = some f) (h : deliver a s = some t)
    (ha : ∀ q image, a ≠ .reset q image) : t.fault = some f := by
  cases a with
  | step => cases h; rw [stepState_of_faulted hf]; exact hf
  | tick60 | keySample m | presentAck => cases h; exact hf
  | reset q image => exact absurd rfl (ha q image)

theorem deliver_reset_fault {q : Quirks} {image : List Byte} {s t : State}
    (h : deliver (.reset q image) s = some t) : t.fault = none := by
  obtain ⟨u, hu, rfl⟩ := Option.map_eq_some_iff.1 h
  exact boot_fault (s := u) hu

/-! ## The bits of a mask -/

theorem getLsbD_iff_div_mod (m : Byte) (k : Nat) : m.getLsbD k = true ↔ m.toNat / 2 ^ k % 2 = 1 := by
  rw [← BitVec.testBit_toNat, Nat.testBit_eq_decide_div_mod_eq, decide_eq_true_eq]

/-- The mask 0x0F keeps the bits 0 to 3. -/
theorem getLsbD_and_low_nibble (m : Byte) {k : Nat} (hk : k < 4) : (m &&& 0x0F#8).getLsbD k = m.getLsbD k := by
  have hlow : (0x0F#8).getLsbD k = true := by
    revert k
    decide
  rw [BitVec.getLsbD_and, hlow, Bool.and_true]

/-- Bits 4 to 7 of the mask make no difference (R38). -/
theorem quirksOfMask_low_nibble (m : Byte) (k : Bool) : quirksOfMask m k = quirksOfMask (m &&& 0x0F#8) k := by
  simp only [quirksOfMask, getLsbD_and_low_nibble m (by decide : 0 < 4), getLsbD_and_low_nibble m (by decide : 1 < 4),
    getLsbD_and_low_nibble m (by decide : 2 < 4), getLsbD_and_low_nibble m (by decide : 3 < 4)]

/-! ## The statements of 10_state.md -/

/-- Settles O57: memory after a step is as before, or written by one transfer of bytes, which keeps the form. -/
theorem stepKeepsMemoryCanonical : Obligations.StepKeepsMemoryCanonical := fun _ _ => step_keeps_memoryCanonical

/-- Settles O58: a step is taken only at a `PC` of at most 4094, and then every target of R25 is in bounds. -/
theorem stepKeepsPcBounded : Obligations.StepKeepsPcBounded := fun _ _ => step_keeps_pcBounded

/-- Settles O12, input by input. -/
theorem faultIsSticky : Obligations.FaultIsSticky := by
  intro s f hf
  refine ⟨congrArg some (stepState_of_faulted hf), ?_, ?_⟩
  · exact fun a t h ha => deliver_keeps_fault hf h ha
  · exact fun q image t h => deliver_reset_fault h

/-- Settles O20: off the footprint of the others, and by the wait of `LD Vx, K` itself. -/
theorem onlyControlFlowMovesPc : Obligations.OnlyControlFlowMovesPc := by
  intro i s t h hne
  refine ⟨movesPc_of_pc_ne h hne, ?_⟩
  rintro x rfl
  rcases exec_ldVxK_inv h with ⟨hk, rfl⟩ | ⟨-, k, -, -, -, rfl⟩
  · exact ⟨hk, rfl⟩
  · exact absurd rfl hne

/-- Settles O30: a flag that changed is in the footprint, and each writer ends with the byte of a truth value. -/
theorem flagChangesOnlyByItsWriters : Obligations.FlagChangesOnlyByItsWriters := by
  intro i s t h
  constructor
  · intro hne
    rcases owns_of_readV_ne h hne with hd | ⟨-, hw⟩
    · exact .inr hd
    · exact .inl hw
  · intro hw hd
    obtain ⟨c, hc⟩ := exec_flag h hw hd
    rw [hc]
    exact flagByte_zero_or_one c

/-- Settles O44: the index of each channel byte divides back into row and column. -/
theorem framebufferBytesAreRgbTriplets : Obligations.FramebufferBytesAreRgbTriplets := by
  intro f
  refine ⟨fbytes_length f, fun row col ch hch => ?_⟩
  have hlt : (row.val * 64 + col.val) * 3 + ch < Config.height * Config.width * 3 := by
    have hrow := row.isLt
    have hcol := col.isLt
    simp only [Config.height, Config.width] at *
    omega
  rw [fbytes, List.getElem?_map, List.getElem?_range hlt, Option.map_some, fbyte_channel f row col hch]

/-- Settles O52: what changed is in the footprint, and what is in the footprint belongs to the instruction; `I` and
`UPD` need besides what a block transfer and a draw leave in them. -/
theorem eachElementHasItsWriters : Obligations.EachElementHasItsWriters := by
  intro i s t h
  have hc := exec_changes h
  have hown : ∀ e, e ∈ footprint i s → Owns i s e := owns_of_mem_footprint
  have hupd : t.upd ≠ s.upd → Owns i s .upd := fun hne => hown _ (not_imp_comm.1 hc.upd hne)
  refine ⟨hc.keys (hown .keys), hc.keysPrev (hown .keysPrev), hc.q (hown .q), hc.fault (hown .fault), ?upd,
    fun r => owns_of_readV_ne h, movesPc_of_pc_ne h, fun hne => hown _ (not_imp_comm.1 hc.draws hne),
    fun hne => hown _ (not_imp_comm.1 hc.stack hne), fun hne => hown _ (not_imp_comm.1 hc.dt hne),
    fun hne => hown _ (not_imp_comm.1 hc.st hne), ?fb, ?mem, ?i⟩
  case upd =>
    intro hs
    by_cases he : t.upd = s.upd
    · rw [he, hs]
    · exact exec_sets_upd h (hupd he)
  case fb =>
    rintro (hne | hne)
    · exact hown _ (not_imp_comm.1 hc.fb hne)
    · exact hupd hne
  case mem =>
    rintro ⟨a, hne⟩
    exact hown _ (not_imp_comm.1 (hc.mem a) hne)
  case i =>
    intro hne
    rcases hown _ (not_imp_comm.1 hc.i hne) with hi | hi | hi | hi
    · exact .inl hi
    · exact .inr (.inl hi)
    · exact .inr (.inr (.inl hi))
    · exact .inr (.inr (.inr ⟨Bool.eq_false_iff.2 fun hq => hne (exec_block_i h hq hi), hi⟩))

/-- Settles O53: the state `boot` builds, element by element, and its refusal. -/
theorem bootGivesResetStateWithImage : Obligations.BootGivesResetStateWithImage := by
  refine fun q image => ⟨fun hlen => ⟨_, boot_of_fits q hlen, rfl, rfl, rfl, rfl, rfl, rfl, rfl, rfl, rfl, rfl,
    fun x => ?v, pixel_clear, fun j hj => ?image, fun a ha => ?rest⟩, boot_of_too_long q⟩
  case v => exact Vector.getElem_replicate x.isLt
  case image => exact read_loadImage_inside [] Config.progStart hj
  case rest => exact read_loadImage_outside [] ha

/-- Settles O54: no glyph lies outside the table, and the three glyphs stand at 5 bytes per digit. -/
theorem resetMemoryHoldsGlyphs : Obligations.ResetMemoryHoldsGlyphs := by
  refine ⟨fun a ha => ?_, by decide, by decide, by decide⟩
  rw [read_reset, resetByte_outside_glyphs ha]

/-- Settles O55: each quirk is a bit of the mask. -/
theorem quirkMaskBits : Obligations.QuirkMaskBits := by
  intro m k
  refine ⟨quirksOfMask_low_nibble m k, rfl, ?_, getLsbD_iff_div_mod m 1, getLsbD_iff_div_mod m 2,
    getLsbD_iff_div_mod m 3⟩
  rw [← Nat.div_one m.toNat]
  exact getLsbD_iff_div_mod m 0

/-- Settles O59: reset memory lists no byte and the stack is empty; a boot adds an image that fits. -/
theorem bootMeetsInvariants : Obligations.BootMeetsInvariants :=
  ⟨⟨.nil, nofun⟩, ⟨by decide, nofun⟩, fun _ _ _ => boot_invariants⟩

end Sys2Proof.Machine

namespace Sys2Proof.Machine

/-! ## Faults of an instruction are never faults of the fetch -/

theorem ownCheckFails_of_exec_fault {i : Instr} {s : State} {f : Fault} (h : exec i s = .fault f) :
    OwnCheckFails i s := by
  by_contra hc
  obtain ⟨t, ht⟩ := exec_next_of_check hc
  rw [ht] at h
  cases h

/-- The instructions with a check record a stack, key, write or read fault, never one of the fetch (R232 to R234). -/
theorem exec_ne_fetch_fault (i : Instr) (s : State) (a : Nat) (p : Word) (w : Option Word) :
    exec i s ≠ .fault (.memoryOutOfBounds .fetch a p w) := by
  intro h
  have hc := ownCheckFails_of_exec_fault h
  cases i
  case ret => rw [exec_ret_fault hc] at h; cases h
  case skp x => rw [exec_skp_fault hc] at h; cases h
  case sknp x => rw [exec_sknp_fault hc] at h; cases h
  case drw x y n =>
    obtain ⟨hn, hi⟩ := hc
    rw [exec_drw_fault x y (by omega)] at h
    cases h
  case ldB x => rw [exec_ldB_fault x hc] at h; cases h
  case storeRegs x => rw [exec_storeRegs_fault hc] at h; cases h
  case loadRegs x => rw [exec_loadRegs_fault hc] at h; cases h
  all_goals exact hc.elim

/-! ## One write, and the bytes a block store leaves -/

/-- A write that succeeds is the write of that byte (R62). -/
theorem eq_write_of_memWrite {m m' : Memory} {a : Nat} {b : Byte} (h : memWrite m a b = .ok m') :
    m' = Memory.write m a b := by
  unfold memWrite at h
  split at h
  · cases h; rfl
  · cases h

/-- The byte at `I + k` after `LD [I], Vx` is the register `V[k]` (R175). -/
theorem read_storeRegs {x k : Reg} {s t : State} (h : exec (.storeRegs x) s = .next t) (hk : k ≤ x) :
    Memory.read t.mem (s.i.toNat + k.val) = readV s k := by
  obtain ⟨-, m, hm, rfl⟩ := exec_storeRegs_inv h
  have hlen : k.val < (readVs s x).length := by
    rw [readVs_length]
    exact Nat.lt_succ_of_le hk
  rw [setI_mem, setMem_mem, read_writeBytes hm, if_pos (Nat.le_add_right _ _), Nat.add_sub_cancel_left,
    List.getD_eq_getElem _ _ hlen, readVs_getElem]

/-- After `LD [I], Vx` the word at `I + k` is made of `V[k]` and the register after it (R65, R175). -/
theorem fetchWord_storeRegs {x k l : Reg} {s t : State} (h : exec (.storeRegs x) s = .next t)
    (hl : l.val = k.val + 1) (hlx : l ≤ x) :
    fetchWord t.mem (s.i.toNat + k.val) = wordOfBytes (readV s k) (readV s l) := by
  have hkx : k ≤ x := le_trans (Fin.le_def.2 (by omega)) hlx
  rw [fetchWord, read_storeRegs h hkx, Nat.add_assoc, ← hl, read_storeRegs h hlx]

/-! ## The statements of 20_memory.md -/

/-- Settles O7: past 4094 the fetch faults; at or below, the step is a decode fault or the instruction's own. -/
theorem fetchPastEndFaults : Obligations.FetchPastEndFaults := by
  refine fun s hf => ⟨step_fetch_fault hf, fun a p w h => ?_⟩
  by_contra hp
  rcases hd : decodeWord (fetchWord s.mem s.pc.toNat) with e | i
  · rw [step_illegal hf (Nat.not_lt.1 hp) hd] at h
    cases h
  · rw [step_eq_exec hf (Nat.not_lt.1 hp) hd] at h
    exact exec_ne_fetch_fault _ _ _ _ _ h

/-- Settles O38: a write in bounds is `Memory.write`, whose reads are known for every list. -/
theorem readReturnsLatestWrite : Obligations.ReadReturnsLatestWrite := by
  intro m m' a c b h
  rw [eq_write_of_memWrite h, read_write]

/-- Settles O39: the store leaves `PC` and `FAULT`, and the word at `PC` is the two registers; the store's own bounds
check keeps `PC` at or below 4094. -/
theorem storeIsSeenByNextFetch : Obligations.StoreIsSeenByNextFetch := by
  intro x s t k l h hl hlx hpc hf i hd
  have hword := fetchWord_storeRegs h hl hlx
  obtain ⟨hbound, m, -, rfl⟩ := exec_storeRegs_inv h
  have hp : s.pc.toNat ≤ 4094 := by
    have : l.val ≤ x.val := hlx
    omega
  rw [← hpc] at hword
  rw [withPcAdvanced_eq_setPc]
  exact step_eq_exec hf hp (hword ▸ decodeWord_of_decode_pair hd)

end Sys2Proof.Machine

namespace Sys2Proof.Machine

/-! ## A word is the encoding of its own fields

One lemma per format of R103, in both directions: what the fields of an encoded word are, and when a word is the encoding
of given fields. -/

/-- Format XNN over a pattern that is a bare class. -/
theorem encXNN_eq_iff {m w : Word} (hm : m.toNat % 4096 = 0) (x : Reg) (nn : Byte) :
    encXNN m x nn = w ↔ opClass w = opClass m ∧ xField w = x ∧ nnField w = nn := by
  have := w.isLt
  have := x.isLt
  have := nn.isLt
  rw [← BitVec.toNat_inj, encXNN_toNat m (m.toNat / 4096) (by omega), ← BitVec.toNat_inj, ← BitVec.toNat_inj, Fin.ext_iff,
    opClass_toNat, opClass_toNat, xField_val, nnField_toNat]
  omega

/-- Format NNN over a pattern that is a bare class. -/
theorem encNNN_eq_iff {m w : Word} (hm : m.toNat % 4096 = 0) (nnn : Addr12) :
    encNNN m nnn = w ↔ opClass w = opClass m ∧ nnnField w = nnn := by
  have := w.isLt
  have := nnn.isLt
  rw [← BitVec.toNat_inj, encNNN_toNat m (m.toNat / 4096) (by omega), ← BitVec.toNat_inj, ← BitVec.toNat_inj,
    opClass_toNat, opClass_toNat, nnnField_toNat]
  omega

/-- Format XYN over a pattern that is a bare class. -/
theorem encXYN_eq_iff {m w : Word} (hm : m.toNat % 4096 = 0) (x y : Reg) (n : BitVec 4) :
    encXYN m x y n = w ↔ opClass w = opClass m ∧ xField w = x ∧ yField w = y ∧ nField w = n := by
  have := w.isLt
  have := x.isLt
  have := y.isLt
  have := n.isLt
  rw [← BitVec.toNat_inj, encXYN_toNat m (m.toNat / 4096) (by omega), ← BitVec.toNat_inj, ← BitVec.toNat_inj, Fin.ext_iff,
    Fin.ext_iff, opClass_toNat, opClass_toNat, xField_val, yField_val, nField_toNat]
  omega

/-- The bare class of a pattern. -/
def classPattern (m : Word) : Word := BitVec.ofNat 16 (m.toNat / 4096 * 4096)

theorem classPattern_toNat (m : Word) : (classPattern m).toNat = m.toNat / 4096 * 4096 := by
  have := m.isLt
  simp only [classPattern, BitVec.toNat_ofNat]
  omega

theorem opClass_classPattern (m : Word) : opClass (classPattern m) = opClass m := by
  rw [← BitVec.toNat_inj, opClass_toNat, opClass_toNat, classPattern_toNat]
  omega

theorem classPattern_low (m : Word) : (classPattern m).toNat % 4096 = 0 := by
  rw [classPattern_toNat]
  omega

/-- Format X: the pattern's sub-opcode byte is the bottom byte of the word. -/
theorem encX_eq_iff {m w : Word} (hm : m.toNat / 256 % 16 = 0) (x : Reg) :
    encX m x = w ↔ opClass w = opClass m ∧ xField w = x ∧ nnField w = nnField m := by
  have hx : xField m = 0 := Fin.ext ((xField_val m).trans hm)
  have hs : encXNN (classPattern m) 0 (nnField m) = m :=
    (encXNN_eq_iff (classPattern_low m) _ _).2 ⟨(opClass_classPattern m).symm, hx, rfl⟩
  rw [encX_subop (classPattern m) m (nnField m) x (by simpa [encXNN, xBits] using hs.symm),
    encXNN_eq_iff (classPattern_low m), opClass_classPattern]

/-- Format XY: the pattern's sub-opcode nibble is the bottom nibble of the word. -/
theorem encXY_eq_iff {m w : Word} (hm : m.toNat / 16 % 256 = 0) (x y : Reg) :
    encXYN m x y 0#4 = w ↔ opClass w = opClass m ∧ xField w = x ∧ yField w = y ∧ nField w = nField m := by
  have hx : xField m = 0 := Fin.ext ((xField_val m).trans (by omega))
  have hy : yField m = 0 := Fin.ext ((yField_val m).trans (by omega))
  have hs : encXYN (classPattern m) 0 0 (nField m) = m :=
    (encXYN_eq_iff (classPattern_low m) _ _ _).2 ⟨(opClass_classPattern m).symm, hx, hy, rfl⟩
  rw [encXYN_subop (classPattern m) m (nField m) x y (by simpa [encXYN, xBits, yBits] using hs.symm),
    encXYN_eq_iff (classPattern_low m), opClass_classPattern]

/-! ## The fields of an encoded word -/

section
variable {m : Word}

theorem fields_encXNN (hm : m.toNat % 4096 = 0) (x : Reg) (nn : Byte) :
    opClass (encXNN m x nn) = opClass m ∧ xField (encXNN m x nn) = x ∧ nnField (encXNN m x nn) = nn :=
  (encXNN_eq_iff hm x nn).1 rfl

theorem fields_encNNN (hm : m.toNat % 4096 = 0) (nnn : Addr12) :
    opClass (encNNN m nnn) = opClass m ∧ nnnField (encNNN m nnn) = nnn :=
  (encNNN_eq_iff hm nnn).1 rfl

theorem fields_encXYN (hm : m.toNat % 4096 = 0) (x y : Reg) (n : BitVec 4) :
    opClass (encXYN m x y n) = opClass m ∧ xField (encXYN m x y n) = x ∧ yField (encXYN m x y n) = y ∧
      nField (encXYN m x y n) = n :=
  (encXYN_eq_iff hm x y n).1 rfl

theorem fields_encX (hm : m.toNat / 256 % 16 = 0) (x : Reg) :
    opClass (encX m x) = opClass m ∧ xField (encX m x) = x ∧ nnField (encX m x) = nnField m :=
  (encX_eq_iff hm x).1 rfl

theorem fields_encXY (hm : m.toNat / 16 % 256 = 0) (x y : Reg) :
    opClass (encXYN m x y 0#4) = opClass m ∧ xField (encXYN m x y 0#4) = x ∧ yField (encXYN m x y 0#4) = y ∧
      nField (encXYN m x y 0#4) = nField m :=
  (encXY_eq_iff hm x y).1 rfl

end

/-- The `x` of `JP V0, nnn` is the high nibble of its address (R128). -/
theorem xField_eq_highNibble (w : Word) : xField w = highNibble (nnnField w) := by
  rw [Fin.ext_iff, xField_val, highNibble_val, nnnField_toNat]
  omega

/-- The round trip on words, format by format: the class selects the row of R94 and the fields give the operands. -/
theorem decodeWord_encode {i : Instr} (h : WellFormed i = true) : decodeWord (encode i) = .ok i := by
  cases i
  case cls | ret => rfl
  case jp | call | ldI => simp [encode, decodeWord, fields_encNNN, opClass_toNat]
  case jpV0 nnn x =>
    obtain rfl : x = highNibble nnn := by simpa [WellFormed] using h
    simp [encode, decodeWord, fields_encNNN, opClass_toNat, xField_eq_highNibble]
  case seImm | sneImm | ldImm | addImm | rnd => simp [encode, decodeWord, fields_encXNN, opClass_toNat]
  case drw => simp [encode, decodeWord, fields_encXYN, opClass_toNat]
  case seReg | sneReg => simp [encode, decodeWord, decodeClass5, fields_encXYN, opClass_toNat]
  case ldReg | orReg | andReg | xorReg | addReg | subReg | shrReg | subnReg | shlReg =>
    simp [encode, decodeWord, decodeClass8, fields_encXY, opClass_toNat, nField_toNat]
  case skp | sknp => simp [encode, decodeWord, decodeClassE, fields_encX, opClass_toNat, nnField_toNat]
  case ldVxDt | ldVxK | ldDtVx | ldStVx | addI | ldF | ldB | storeRegs | loadRegs =>
    simp [encode, decodeWord, decodeClassF, fields_encX, opClass_toNat, nnField_toNat]

/-- The bytes that store a word decode as the word, whatever follows them (R65, R99). -/
theorem decode_wordBytes_append {w : Word} {i : Instr} (rest : List Byte) (h : decodeWord w = .ok i) :
    decode (wordBytes w ++ rest) = .ok (i, rest) := by
  simp [wordBytes, decode, wordOfBytes_of_word, h]

/-! ## Fields under a mask -/

/-- A mask of ones keeps a field. -/
theorem extractLsb'_and_of_ones {m : Word} {s l : Nat} (hm : m.extractLsb' s l = BitVec.allOnes l) (w : Word) :
    (w &&& m).extractLsb' s l = w.extractLsb' s l := by
  rw [BitVec.extractLsb'_and, hm, BitVec.and_allOnes]

/-- A mask of zeros clears a field. -/
theorem extractLsb'_and_of_zero {m : Word} {s l : Nat} (hm : m.extractLsb' s l = 0#l) (w : Word) :
    (w &&& m).extractLsb' s l = 0#l := by
  rw [BitVec.extractLsb'_and, hm, BitVec.and_zero]

/-! ## A word that decodes is the encoding of its instruction -/

theorem encode_of_decodeClass0 {w : Word} {i : Instr} (h : decodeClass0 w = .ok i) :
    WellFormed i = true ∧ encode i = w := by
  simp only [decodeClass0] at h
  split at h
  · next hw => cases h; exact ⟨rfl, hw.symm⟩
  · split at h
    · next hw => cases h; exact ⟨rfl, hw.symm⟩
    · cases h

theorem encode_of_decodeClass5 {w : Word} {i : Instr} (hc : opClass w = 0x5#4) (h : decodeClass5 w = .ok i) :
    WellFormed i = true ∧ encode i = w := by
  simp only [decodeClass5] at h
  split at h
  · next hn => cases h; exact ⟨rfl, (encXY_eq_iff (by decide) _ _).2 ⟨hc, rfl, rfl, hn⟩⟩
  · cases h

/-- In class 8 the bottom nibble is the pattern's. -/
theorem encode_of_decodeClass8 {w : Word} {i : Instr} (hc : opClass w = 0x8#4) (h : decodeClass8 w = .ok i) :
    WellFormed i = true ∧ encode i = w := by
  unfold decodeClass8 at h
  split at h
  case h_10 => cases h
  all_goals
    next hn => cases h; exact ⟨rfl, (encXY_eq_iff (by decide) _ _).2 ⟨hc, rfl, rfl, BitVec.eq_of_toNat_eq hn⟩⟩

/-- In class E the bottom byte is the pattern's. -/
theorem encode_of_decodeClassE {w : Word} {i : Instr} (hc : opClass w = 0xE#4) (h : decodeClassE w = .ok i) :
    WellFormed i = true ∧ encode i = w := by
  unfold decodeClassE at h
  split at h
  case h_3 => cases h
  all_goals
    next hn => cases h; exact ⟨rfl, (encX_eq_iff (by decide) _).2 ⟨hc, rfl, BitVec.eq_of_toNat_eq hn⟩⟩

/-- In class F the bottom byte is the pattern's. -/
theorem encode_of_decodeClassF {w : Word} {i : Instr} (hc : opClass w = 0xF#4) (h : decodeClassF w = .ok i) :
    WellFormed i = true ∧ encode i = w := by
  unfold decodeClassF at h
  split at h
  case h_10 => cases h
  all_goals
    next hn => cases h; exact ⟨rfl, (encX_eq_iff (by decide) _).2 ⟨hc, rfl, BitVec.eq_of_toNat_eq hn⟩⟩

/-- Class 9 holds one instruction, whose bottom nibble decode does not read (R96). -/
theorem decodeWord_class9 {w : Word} (hc : opClass w = 0x9#4) :
    decodeWord w = .ok (.sneReg (xField w) (yField w)) := by
  simp [decodeWord, hc]

/-- The canonical word of class 9 has a zero bottom nibble (R96, R103). -/
theorem encode_sneReg_fields {w : Word} (hc : opClass w = 0x9#4) :
    encode (.sneReg (xField w) (yField w)) = w &&& 0xFFF0#16 := by
  refine (encXYN_eq_iff (by decide) _ _ _).2 ⟨?_, ?_, ?_, ?_⟩
  · exact (extractLsb'_and_of_ones rfl w).trans hc
  · rw [xField, extractLsb'_and_of_ones rfl, xField]
  · rw [yField, extractLsb'_and_of_ones rfl, yField]
  · exact extractLsb'_and_of_zero rfl w

/-- Outside class 9 a word that decodes is the encoding of its instruction. -/
theorem encode_of_decodeWord {w : Word} {i : Instr} (h9 : opClass w ≠ 0x9#4) (h : decodeWord w = .ok i) :
    WellFormed i = true ∧ encode i = w := by
  unfold decodeWord at h
  split at h
  case h_1 => exact encode_of_decodeClass0 h
  case h_6 hc => exact encode_of_decodeClass5 (opClass_eq_of_toNat hc) h
  case h_9 hc => exact encode_of_decodeClass8 (opClass_eq_of_toNat hc) h
  case h_15 hc => exact encode_of_decodeClassE (opClass_eq_of_toNat hc) h
  case h_16 hc => exact encode_of_decodeClassF (opClass_eq_of_toNat hc) h
  case h_10 hc => exact absurd (opClass_eq_of_toNat hc) h9
  case h_12 hc =>
    cases h
    exact ⟨beq_iff_eq.2 (xField_eq_highNibble w), (encNNN_eq_iff (by decide) _).2 ⟨opClass_eq_of_toNat hc, rfl⟩⟩
  case h_14 hc =>
    cases h
    exact ⟨rfl, (encXYN_eq_iff (by decide) _ _ _).2 ⟨opClass_eq_of_toNat hc, rfl, rfl, rfl⟩⟩
  case h_2 hc | h_3 hc | h_11 hc =>
    cases h
    exact ⟨rfl, (encNNN_eq_iff (by decide) _).2 ⟨opClass_eq_of_toNat hc, rfl⟩⟩
  case h_4 hc | h_5 hc | h_7 hc | h_8 hc | h_13 hc =>
    cases h
    exact ⟨rfl, (encXNN_eq_iff (by decide) _ _).2 ⟨opClass_eq_of_toNat hc, rfl, rfl⟩⟩
  case h_17 => cases h

/-! ## The words that are no instruction (R95) -/

theorem decodeWord_of_illegal {w : Word} (h : IllegalWord w) : decodeWord w = .error (.unimplementedOpcode w) := by
  rcases h with ⟨hc, hcls, hret⟩ | ⟨hc, hn⟩ | ⟨hc, hn⟩ | ⟨hc, hn⟩ | ⟨hc, hn⟩
  · simp [decodeWord, decodeClass0, hc, hcls, hret]
  · simp [decodeWord, decodeClass5, hc, hn]
  · simp only [List.mem_cons, List.not_mem_nil, or_false] at hn
    rcases hn with hn | hn | hn | hn | hn | hn | hn <;> simp [decodeWord, decodeClass8, hc, hn]
  · simp only [decodeWord, hc, BitVec.toNat_ofNat, decodeClassE]
    split
    case h_3 => rfl
    all_goals next hv => simp [← BitVec.toNat_inj, hv] at hn
  · simp only [decodeWord, hc, BitVec.toNat_ofNat, decodeClassF]
    split
    case h_10 => rfl
    all_goals next hv => simp [← BitVec.toNat_inj, hv] at hn

/-! ## The mask and match columns of R94 as conditions on fields

A pattern is the encoding of zero operands, so what a mask tests is what the encoder of its format writes. -/

theorem covers_iff (r : OpcodeRow) (w : Word) : r.covers w = true ↔ r.pattern = w &&& r.mask := by
  rw [OpcodeRow.covers, beq_iff_eq, eq_comm]

section
variable {r : OpcodeRow} {w : Word}

/-- The two rows of class 0 match the whole word (R97). -/
theorem covers_iff_eq (hm : r.mask = 0xFFFF#16) : r.covers w = true ↔ w = r.pattern := by
  rw [covers_iff, hm, show w &&& 0xFFFF#16 = w from BitVec.and_allOnes, eq_comm]

/-- Formats NNN, XNN and XYN, and class 9, match the class alone. -/
theorem covers_iff_class (hm : r.mask = 0xF000#16) (hp : r.pattern.toNat % 4096 = 0) :
    r.covers w = true ↔ opClass w = opClass r.pattern := by
  have henc : encNNN r.pattern 0 = r.pattern := by simp [encNNN]
  have hc : opClass (w &&& 0xF000#16) = opClass w := extractLsb'_and_of_ones rfl w
  have hn : nnnField (w &&& 0xF000#16) = 0 := extractLsb'_and_of_zero rfl w
  rw [covers_iff, hm, ← henc, encNNN_eq_iff hp, henc, hc, hn]
  simp

/-- Format XY matches the class and the bottom nibble. -/
theorem covers_iff_class_nibble (hm : r.mask = 0xF00F#16) (hp : r.pattern.toNat / 16 % 256 = 0) :
    r.covers w = true ↔ opClass w = opClass r.pattern ∧ nField w = nField r.pattern := by
  have henc : encXYN r.pattern 0 0 0#4 = r.pattern := by simp [encXYN, xBits, yBits]
  have hc : opClass (w &&& 0xF00F#16) = opClass w := extractLsb'_and_of_ones rfl w
  have hx : xField (w &&& 0xF00F#16) = 0 := by rw [xField, extractLsb'_and_of_zero rfl]; rfl
  have hy : yField (w &&& 0xF00F#16) = 0 := by rw [yField, extractLsb'_and_of_zero rfl]; rfl
  have hn : nField (w &&& 0xF00F#16) = nField w := extractLsb'_and_of_ones rfl w
  rw [covers_iff, hm, ← henc, encXY_eq_iff hp, henc, hc, hx, hy, hn]
  simp

/-- Format X matches the class and the bottom byte. -/
theorem covers_iff_class_byte (hm : r.mask = 0xF0FF#16) (hp : r.pattern.toNat / 256 % 16 = 0) :
    r.covers w = true ↔ opClass w = opClass r.pattern ∧ nnField w = nnField r.pattern := by
  have henc : encX r.pattern 0 = r.pattern := by simp [encX, xBits]
  have hc : opClass (w &&& 0xF0FF#16) = opClass w := extractLsb'_and_of_ones rfl w
  have hx : xField (w &&& 0xF0FF#16) = 0 := by rw [xField, extractLsb'_and_of_zero rfl]; rfl
  have hn : nnField (w &&& 0xF0FF#16) = nnField w := extractLsb'_and_of_ones rfl w
  rw [covers_iff, hm, ← henc, encX_eq_iff hp, henc, hc, hx, hn]
  simp

end

/-! ## A covered word decodes to the instruction of its row -/

/-- The word decodes to an instruction of the row's mnemonic. -/
def DecodesAs (w : Word) (r : OpcodeRow) : Prop := ∃ i, decodeWord w = .ok i ∧ mnemonicOf i = r.mnemonic

theorem decodesAs_of_covers_0to7 (w : Word) : ∀ r ∈ opcodeRows0to7, r.covers w = true → DecodesAs w r := by
  simp only [opcodeRows0to7, List.forall_mem_cons]
  refine ⟨?cls, ?ret, ?jp, ?call, ?seImm, ?sneImm, ?seReg, ?ldImm, ?addImm, nofun⟩
  case cls | ret =>
    intro h
    obtain rfl := (covers_iff_eq rfl).1 h
    exact ⟨_, rfl, rfl⟩
  case seReg =>
    intro h
    obtain ⟨hc, hn⟩ := (covers_iff_class_nibble rfl (by decide)).1 h
    have hn : nField w = 0x0#4 := hn
    simp [DecodesAs, decodeWord, decodeClass5, mnemonicOf, hc, hn, opClass_toNat]
  all_goals
    intro h
    have hc := (covers_iff_class rfl (by decide)).1 h
    simp [DecodesAs, decodeWord, mnemonicOf, hc, opClass_toNat]

theorem decodesAs_of_covers_8 (w : Word) : ∀ r ∈ opcodeRows8, r.covers w = true → DecodesAs w r := by
  simp only [opcodeRows8, List.forall_mem_cons]
  refine ⟨?ldReg, ?orReg, ?andReg, ?xorReg, ?addReg, ?subReg, ?shrReg, ?subnReg, ?shlReg, nofun⟩
  all_goals
    intro h
    obtain ⟨hc, hn⟩ := (covers_iff_class_nibble rfl (by decide)).1 h
    simp [DecodesAs, decodeWord, decodeClass8, mnemonicOf, hc, hn, opClass_toNat, nField_toNat]

theorem decodesAs_of_covers_9toE (w : Word) : ∀ r ∈ opcodeRows9toE, r.covers w = true → DecodesAs w r := by
  simp only [opcodeRows9toE, List.forall_mem_cons]
  refine ⟨?sneReg, ?ldI, ?jpV0, ?rnd, ?drw, ?skp, ?sknp, nofun⟩
  case skp | sknp =>
    intro h
    obtain ⟨hc, hn⟩ := (covers_iff_class_byte rfl (by decide)).1 h
    simp [DecodesAs, decodeWord, decodeClassE, mnemonicOf, hc, hn, opClass_toNat, nnField_toNat]
  all_goals
    intro h
    have hc := (covers_iff_class rfl (by decide)).1 h
    simp [DecodesAs, decodeWord, mnemonicOf, hc, opClass_toNat]

theorem decodesAs_of_covers_F (w : Word) : ∀ r ∈ opcodeRowsF, r.covers w = true → DecodesAs w r := by
  simp only [opcodeRowsF, List.forall_mem_cons]
  refine ⟨?ldVxDt, ?ldVxK, ?ldDtVx, ?ldStVx, ?addI, ?ldF, ?ldB, ?storeRegs, ?loadRegs, nofun⟩
  all_goals
    intro h
    obtain ⟨hc, hn⟩ := (covers_iff_class_byte rfl (by decide)).1 h
    simp [DecodesAs, decodeWord, decodeClassF, mnemonicOf, hc, hn, opClass_toNat, nnField_toNat]

theorem decodesAs_of_covers {r : OpcodeRow} {w : Word} (hr : r ∈ opcodeTable) (h : r.covers w = true) :
    DecodesAs w r := by
  simp only [opcodeTable, List.mem_append] at hr
  rcases hr with ((hr | hr) | hr) | hr
  · exact decodesAs_of_covers_0to7 w r hr h
  · exact decodesAs_of_covers_8 w r hr h
  · exact decodesAs_of_covers_9toE w r hr h
  · exact decodesAs_of_covers_F w r hr h

/-! ## A legal word is covered by a row

What R95 leaves of each class is the column of patterns of that class: a closed fact about the table. -/

theorem exists_class_row : ∀ c : BitVec 4, c ∉ [0x0#4, 0x5#4, 0x8#4, 0xE#4, 0xF#4] →
    ∃ r ∈ opcodeTable, r.mask = 0xF000#16 ∧ r.pattern.toNat % 4096 = 0 ∧ opClass r.pattern = c := by
  decide

theorem exists_class8_row : ∀ n : BitVec 4, n ∉ [0x8#4, 0x9#4, 0xA#4, 0xB#4, 0xC#4, 0xD#4, 0xF#4] →
    ∃ r ∈ opcodeTable, r.mask = 0xF00F#16 ∧ r.pattern.toNat / 16 % 256 = 0 ∧ opClass r.pattern = 0x8#4 ∧
      nField r.pattern = n := by
  decide

theorem exists_classE_row : ∀ nn ∈ [0x9E#8, 0xA1#8],
    ∃ r ∈ opcodeTable, r.mask = 0xF0FF#16 ∧ r.pattern.toNat / 256 % 16 = 0 ∧ opClass r.pattern = 0xE#4 ∧
      nnField r.pattern = nn := by
  decide

theorem exists_classF_row : ∀ nn ∈ [0x07#8, 0x0A#8, 0x15#8, 0x18#8, 0x1E#8, 0x29#8, 0x33#8, 0x55#8, 0x65#8],
    ∃ r ∈ opcodeTable, r.mask = 0xF0FF#16 ∧ r.pattern.toNat / 256 % 16 = 0 ∧ opClass r.pattern = 0xF#4 ∧
      nnField r.pattern = nn := by
  decide

theorem exists_row_covers {w : Word} (h : ¬ IllegalWord w) : ∃ r ∈ opcodeTable, r.covers w = true := by
  simp only [IllegalWord, not_or, not_and, not_not] at h
  obtain ⟨h0, h5, h8, hE, hF⟩ := h
  by_cases hc : opClass w ∈ [0x0#4, 0x5#4, 0x8#4, 0xE#4, 0xF#4]
  · simp only [List.mem_cons, List.not_mem_nil, or_false] at hc
    rcases hc with hc | hc | hc | hc | hc
    · by_cases hw : w = 0x00E0#16
      · exact ⟨⟨"CLS", 0xFFFF, 0x00E0⟩, by decide, (covers_iff_eq rfl).2 hw⟩
      · exact ⟨⟨"RET", 0xFFFF, 0x00EE⟩, by decide, (covers_iff_eq rfl).2 (h0 hc hw)⟩
    · exact ⟨⟨"SE_Vx__Vy", 0xF00F, 0x5000⟩, by decide, (covers_iff_class_nibble rfl (by decide)).2 ⟨hc, h5 hc⟩⟩
    · obtain ⟨r, hr, hm, hp, hrc, hn⟩ := exists_class8_row _ (h8 hc)
      exact ⟨r, hr, (covers_iff_class_nibble hm hp).2 ⟨hc.trans hrc.symm, hn.symm⟩⟩
    · obtain ⟨r, hr, hm, hp, hrc, hn⟩ := exists_classE_row _ (hE hc)
      exact ⟨r, hr, (covers_iff_class_byte hm hp).2 ⟨hc.trans hrc.symm, hn.symm⟩⟩
    · obtain ⟨r, hr, hm, hp, hrc, hn⟩ := exists_classF_row _ (hF hc)
      exact ⟨r, hr, (covers_iff_class_byte hm hp).2 ⟨hc.trans hrc.symm, hn.symm⟩⟩
  · obtain ⟨r, hr, hm, hp, hrc⟩ := exists_class_row _ hc
    exact ⟨r, hr, (covers_iff_class hm hp).2 hrc.symm⟩

/-- No two rows of R94 carry one mnemonic. -/
theorem eq_of_mnemonic_eq {r r' : OpcodeRow} (hr : r ∈ opcodeTable) (hr' : r' ∈ opcodeTable)
    (h : r.mnemonic = r'.mnemonic) : r = r' :=
  List.inj_on_of_nodup_map (f := OpcodeRow.mnemonic) (by decide) hr hr' h

/-- A row covers the words that decode to its instruction and no others: a word that decodes is legal, so some row
covers it, and that row's mnemonic is the instruction's. -/
theorem covers_iff_decodesAs {r : OpcodeRow} {w : Word} (hr : r ∈ opcodeTable) :
    r.covers w = true ↔ DecodesAs w r := by
  refine ⟨decodesAs_of_covers hr, fun ⟨i, hi, hmn⟩ => ?_⟩
  have hlegal : ¬ IllegalWord w := fun hw => by
    rw [decodeWord_of_illegal hw] at hi
    cases hi
  obtain ⟨r', hr', hcov⟩ := exists_row_covers hlegal
  obtain ⟨j, hj, hmn'⟩ := decodesAs_of_covers hr' hcov
  obtain rfl : i = j := Except.ok.inj (hi.symm.trans hj)
  rwa [eq_of_mnemonic_eq hr hr' (hmn.symm.trans hmn')]

/-! ## The statements of 30_encoding.md -/

/-- Settles O1: the round trip on words, and the two bytes of a word are the word again. -/
theorem decodeOfEncodeIsIdentity : Obligations.DecodeOfEncodeIsIdentity :=
  fun _ rest h => ⟨decodeWord_encode h, decode_wordBytes_append rest (decodeWord_encode h)⟩

/-- Settles O2: outside class 9 the word is its instruction's encoding; class 9 is one instruction. -/
theorem encodeOfDecodeIsCanonicalWord : Obligations.EncodeOfDecodeIsCanonicalWord := by
  intro w i h
  by_cases hc : opClass w = 0x9#4
  · rw [decodeWord_class9 hc] at h
    cases h
    exact ⟨rfl, absurd hc, encode_sneReg_fields⟩
  · obtain ⟨hwf, henc⟩ := encode_of_decodeWord hc h
    exact ⟨hwf, fun _ => henc, fun h9 => absurd h9 hc⟩

/-- Settles O3: a row covers exactly the words that decode to its instruction. -/
theorem dispatchAgreesWithOpcodeTable : Obligations.DispatchAgreesWithOpcodeTable := by
  refine fun w => ⟨fun i hi r hr => ?_, fun e he r hr => ?_⟩
  · rw [covers_iff_decodesAs hr, DecodesAs, hi, eq_comm]
    simp
  · rw [← Bool.not_eq_true, covers_iff_decodesAs hr, DecodesAs, he]
    simp

/-- Settles O4: the listed words have no row in the dispatch, and a word the dispatch rejects is listed. -/
theorem illegalWordsAreThoseListed : Obligations.IllegalWordsAreThoseListed :=
  fun _ => ⟨⟨illegal_of_decodeWord_error, decodeWord_of_illegal⟩, decodeWord_ok_of_not_illegal⟩

/-- Settles O5: each word is evaluated by the decoder. -/
theorem sampleWordsDecode : Obligations.SampleWordsDecode := by
  unfold Obligations.SampleWordsDecode
  decide

end Sys2Proof.Machine

namespace Sys2Proof.Machine

/-! ## Control flow: where `PC` is after a skip and after the offset jump -/

/-- A skip as a number: 2 more, `mod 65536`, exactly under its condition (R127). -/
theorem skipIf_pc_toNat {c : Bool} {p : Prop} [Decidable p] (hc : c = true ↔ p) (s : State) :
    (skipIf c s).pc.toNat = if p then (s.pc.toNat + 2) % 65536 else s.pc.toNat := by
  rw [skipIf_eq, setPc_pc]
  by_cases hp : p
  · rw [if_pos (hc.2 hp), if_pos hp, BitVec.toNat_add, BitVec.toNat_ofNat]
  · rw [if_neg (fun h => hp (hc.1 h)), if_neg hp]

/-- What every skip instruction shares: an instruction that answers `skipIf c` moves `PC` under the condition `c` decides,
and changes nothing else (R123 to R127). -/
theorem skip_spec {i : Instr} {s : State} {c : Bool} {p : Prop} [Decidable p] (h : exec i s = .next (skipIf c s))
    (hc : c = true ↔ p) :
    ∃ t, exec i s = .next t ∧ t.pc.toNat = (if p then (s.pc.toNat + 2) % 65536 else s.pc.toNat) ∧
      ChangesOnly [.pc] s t :=
  ⟨_, h, skipIf_pc_toNat hc s, changes_skipIf c s⟩

/-- The target of `JP V0, nnn` as a number: the base is all of `nnn`, and the sum is not masked to 12 bits (R128). -/
theorem jumpOffsetTarget_toNat (nnn : Addr12) (b : Byte) :
    (addrOf nnn + b.zeroExtend 16).toNat = (nnn.toNat + b.toNat) % 65536 := by
  rw [BitVec.toNat_add, addrOf_toNat, BitVec.toNat_setWidth_of_le (by decide)]

/-- The push of `CALL` as a write of the stack: `PC` is the already advanced one (R122). -/
theorem exec_call (nnn : Addr12) (s : State) :
    exec (.call nnn) s = .next ((s.setStack (s.stack ++ [s.pc])).setPc (addrOf nnn)) := rfl

/-! ## The statements of 40_flow.md -/

/-- Settles O13: the meaning is one write of `PC`. -/
theorem jumpSetsPc : Obligations.JumpSetsPc :=
  fun nnn s => ⟨_, rfl, addrOf_toNat nnn, changes_setPc s _⟩

/-- Settles O14: the meaning is one push and one write of `PC`, with no case on the depth of the stack. -/
theorem callPushesPcAndJumps : Obligations.CallPushesPcAndJumps :=
  fun nnn s => ⟨_, exec_call nnn s, rfl, addrOf_toNat nnn, exec_changes (exec_call nnn s)⟩

/-- Settles O15, by the two cases of the stack. -/
theorem returnPopsNewestEntry : Obligations.ReturnPopsNewestEntry := by
  refine fun s => ⟨fun l a hs => ?_, fun hs => ⟨_, _, exec_ret_fault hs⟩⟩
  have hret := exec_ret_next hs
  exact ⟨_, hret, rfl, rfl, exec_changes hret⟩

/-- Settles O16: the entry `CALL` pushed, the `PC` of `s`, is the newest one `RET` meets. -/
theorem returnResumesAfterCall : Obligations.ReturnResumesAfterCall := by
  intro nnn s t r hcall hr
  rw [exec_call] at hcall
  cases hcall
  exact ⟨_, exec_ret_next hr, rfl, rfl⟩

/-- Settles O17: both are skips, under the comparison with the immediate. -/
theorem skipsOnImmediate : Obligations.SkipsOnImmediate :=
  fun _ _ _ => ⟨skip_spec rfl beq_iff_eq, skip_spec rfl bne_iff_ne⟩

/-- Settles O18: both are skips, under the comparison of the two registers. -/
theorem skipsOnRegisters : Obligations.SkipsOnRegisters :=
  fun _ _ _ => ⟨skip_spec rfl beq_iff_eq, skip_spec rfl bne_iff_ne⟩

/-- Settles O19: one write of `PC`; the quirk chooses the register whose byte is added. -/
theorem jumpWithOffsetAddsRegister : Obligations.JumpWithOffsetAddsRegister := by
  intro nnn x s
  refine ⟨_, rfl, ?_, changes_setPc s _⟩
  rw [setPc_pc, jumpOffsetTarget_toNat, offsetReg]
  split <;> rfl

end Sys2Proof.Machine

namespace Sys2Proof.Machine

/-! ## Results and flags as numbers (R8) -/

/-- The byte of a comparison, as the spec's `bool(c)` (R22). -/
theorem flagByte_decide_toNat (p : Prop) [Decidable p] : (flagByte (decide p)).toNat = if p then 1 else 0 := by
  by_cases hp : p <;> simp [hp]

/-- The difference `mod 256` without a negative number (R147). -/
theorem byte_sub_toNat (a b : Byte) : (a - b).toNat = (a.toNat + 256 - b.toNat) % 256 := by
  rw [BitVec.toNat_sub]
  have := b.isLt
  omega

/-- A right shift by one halves (R148). -/
theorem byte_shiftRight_one_toNat (b : Byte) : (b >>> 1).toNat = b.toNat / 2 := by
  rw [BitVec.toNat_ushiftRight, Nat.shiftRight_eq_div_pow, pow_one]

/-- A left shift by one doubles `mod 256` (R150). -/
theorem byte_shiftLeft_one_toNat (b : Byte) : (b <<< 1).toNat = b.toNat * 2 % 256 := by
  rw [BitVec.toNat_shiftLeft, Nat.shiftLeft_eq, pow_one]

/-- A byte masked with `m` has no bit outside `m` (R152). -/
theorem and_mask_and_not_mask (b m : Byte) : b &&& m &&& ~~~m = 0#8 := by
  rw [BitVec.and_assoc, BitVec.and_not_self]
  exact BitVec.and_zero

/-! ## The two shared endings: result then flag, and the logic operation -/

/-- What every arithmetic and shift instruction shares: the result is in its register unless the flag has overwritten it
there, the flag is in `VF` in every form, and nothing else has changed (R22, R23). -/
theorem writeResultThenFlag_spec (s : State) (x : Reg) {b : Byte} {c : Bool} {n f : Nat} (hb : b.toNat = n)
    (hc : (flagByte c).toNat = f) :
    (x ≠ VF → (readV (writeResultThenFlag s x b c) x).toNat = n) ∧
      (readV (writeResultThenFlag s x b c) VF).toNat = f ∧
      ChangesOnly [.v x, .v VF] s (writeResultThenFlag s x b c) := by
  rw [writeResultThenFlag_eq]
  refine ⟨fun hx => ?_, ?_, changes_resultThenFlag s x b (flagByte c)⟩
  · rw [readV_writeV, if_neg hx, readV_writeV_self, hb]
  · rw [readV_writeV_self, hc]

/-- A subtraction into any register: the difference, and 1 for no borrow (R147, R149). -/
theorem subtractInto_spec (d : Reg) (a b : Byte) (s : State) :
    (d ≠ VF → (readV (subtractInto d a b s) d).toNat = (a.toNat + 256 - b.toNat) % 256) ∧
      (readV (subtractInto d a b s) VF).toNat = (if a.toNat ≥ b.toNat then 1 else 0) ∧
      ChangesOnly [.v d, .v VF] s (subtractInto d a b s) :=
  writeResultThenFlag_spec s d (byte_sub_toNat a b) (flagByte_decide_toNat _)

/-- The registers after the flag clear are the operands the statements speak of (R143). -/
theorem readV_logicClear (s : State) (r : Reg) : readV (logicClear s) r = logicOperand s r := by
  cases hq : s.q.logicKeepFlag <;> simp [logicClear, logicOperand, writeFlag_eq, hq]

/-- With the quirk set an operand is the register as it is (R37). -/
theorem logicOperand_of_keepFlag {s : State} (hq : s.q.logicKeepFlag = true) (r : Reg) :
    logicOperand s r = readV s r := by
  simp [logicOperand, hq]

theorem readV_logicOp_self (f : Byte → Byte → Byte) (x y : Reg) (s : State) :
    readV (logicOp f x y s) x = f (logicOperand s x) (logicOperand s y) := by
  rw [logicOp, readV_writeV_self, readV_logicClear, readV_logicClear]

/-- A logic operation with the quirk clear (R143 to R145). -/
theorem logicOp_spec_clear (f : Byte → Byte → Byte) (x y : Reg) {s : State} (hq : s.q.logicKeepFlag = false) :
    readV (logicOp f x y s) x = f (logicOperand s x) (logicOperand s y) ∧
      (x ≠ VF → readV (logicOp f x y s) VF = 0#8) ∧ ChangesOnly [.v x, .v VF] s (logicOp f x y s) := by
  refine ⟨readV_logicOp_self f x y s, fun hx => readV_logicOp_flag f y hq hx.symm, ?_⟩
  simpa [hq] using logicOp_changes f x y s

/-- A logic operation with the quirk set (R37). -/
theorem logicOp_spec_keep (f : Byte → Byte → Byte) (x y : Reg) {s : State} (hq : s.q.logicKeepFlag = true) :
    readV (logicOp f x y s) x = f (readV s x) (readV s y) ∧ ChangesOnly [.v x] s (logicOp f x y s) := by
  constructor
  · rw [readV_logicOp_self, logicOperand_of_keepFlag hq, logicOperand_of_keepFlag hq]
  · simpa [hq] using logicOp_changes f x y s

/-! ## The statements of 41_alu.md -/

/-- Settles O21: both are one register write. -/
theorem loadAndCopyRegister : Obligations.LoadAndCopyRegister :=
  fun x _ _ s => ⟨⟨_, rfl, readV_writeV_self s x _, changes_writeV s x _⟩,
    ⟨_, rfl, readV_writeV_self s x _, changes_writeV s x _⟩⟩

/-- Settles O22: one register write, of the sum of two bytes. -/
theorem addImmediateWrapsWithoutFlag : Obligations.AddImmediateWrapsWithoutFlag := by
  refine fun x nn s => ⟨_, rfl, ?_, changes_writeV s x _⟩
  rw [readV_writeV_self, BitVec.toNat_add]

/-- Settles O23: the three are one operation, with the flag cleared before its operands are read. -/
theorem logicClearsFlagThenCombines : Obligations.LogicClearsFlagThenCombines :=
  fun x y _ hq => ⟨⟨_, rfl, logicOp_spec_clear _ x y hq⟩, ⟨_, rfl, logicOp_spec_clear _ x y hq⟩,
    ⟨_, rfl, logicOp_spec_clear _ x y hq⟩⟩

/-- Settles O24: the same operation, which then leaves the flag and its operands alone. -/
theorem logicKeepsFlagUnderQuirk : Obligations.LogicKeepsFlagUnderQuirk :=
  fun x y _ hq => ⟨⟨_, rfl, logicOp_spec_keep _ x y hq⟩, ⟨_, rfl, logicOp_spec_keep _ x y hq⟩,
    ⟨_, rfl, logicOp_spec_keep _ x y hq⟩⟩

/-- Settles O25: result, then flag, with the sum and the carry. -/
theorem addWritesSumAndCarry : Obligations.AddWritesSumAndCarry :=
  fun x _ s => ⟨_, rfl, writeResultThenFlag_spec s x (BitVec.toNat_add _ _) (flagByte_decide_toNat _)⟩

/-- Settles O26: the subtraction of `V[y]` from `V[x]` into `x`. -/
theorem subtractWritesDifferenceAndNotBorrow : Obligations.SubtractWritesDifferenceAndNotBorrow :=
  fun x _ s => ⟨_, rfl, subtractInto_spec x _ _ s⟩

/-- Settles O27: the subtraction with its operands exchanged, into the register each reading of the destination names. -/
theorem reverseSubtractUnderEitherDestination : Obligations.ReverseSubtractUnderEitherDestination := by
  refine fun x y s => ⟨rfl, fun d z hz => ?_⟩
  have hd : z = subnTarget d x y := by cases d <;> exact hz
  subst hd
  exact subtractInto_spec _ _ _ s

/-- Settles O28: result, then flag, from the operand the quirk chooses. -/
theorem shiftsByOneAndKeepsLostBit : Obligations.ShiftsByOneAndKeepsLostBit := by
  intro x y s o ho
  have ho : (shiftSource s x y).toNat = o := ho.symm
  subst ho
  exact ⟨⟨_, rfl, writeResultThenFlag_spec s x (byte_shiftRight_one_toNat _) (shiftedOutRight_toNat _)⟩,
    ⟨_, rfl, writeResultThenFlag_spec s x (byte_shiftLeft_one_toNat _) (shiftedOutLeft_toNat _)⟩⟩

/-- Settles O29: a byte masked with `nn` meets nothing of the complement of `nn`, and the counter moves on by one. -/
theorem randomByteIsMasked : Obligations.RandomByteIsMasked := by
  refine fun x nn s => ⟨_, rfl, readV_writeV_self _ x _, ?_, Nat.succ_ne_self _, exec_changes (i := .rnd x nn) rfl⟩
  rw [readV_writeV_self, and_mask_and_not_mask]

end Sys2Proof.Machine

namespace Sys2Proof.Machine

/-! ## The index register and the digits of a byte as numbers (R8) -/

/-- The address of a glyph never wraps: at most `0x50 + 5 * 255` (R173). -/
theorem glyphAddr_toNat (b : Byte) : (glyphAddr b).toNat = 0x50 + 5 * b.toNat := by
  have := b.isLt
  rw [glyphAddr, Config.glyphBase, Config.glyphBytes, BitVec.toNat_ofNat]
  omega

/-- The sum of the index register and a byte wraps at 65536 (R172). -/
theorem index_add_byte_toNat (i : Word) (b : Byte) :
    (i + b.zeroExtend 16).toNat = (i.toNat + b.toNat) % 65536 := by
  rw [BitVec.toNat_add, BitVec.toNat_setWidth_of_le (by decide)]

@[simp] theorem bcdDigits_length (b : Byte) : (bcdDigits b).length = 3 := rfl

/-- The three digits as numbers: none is cut by its byte (R174). -/
theorem bcdDigits_toNat (b : Byte) :
    (bcdDigits b)[0].toNat = b.toNat / 100 ∧ (bcdDigits b)[1].toNat = b.toNat / 10 % 10 ∧
      (bcdDigits b)[2].toNat = b.toNat % 10 := by
  have := b.isLt
  refine ⟨Nat.mod_eq_of_lt ?_, Nat.mod_eq_of_lt ?_, Nat.mod_eq_of_lt ?_⟩ <;> omega

/-! ## What the transfers leave at each place -/

/-- A write of bytes leaves the `k`-th at its address (R171). -/
theorem read_writeBytes_inside {m m' : Memory} {a k : Nat} {bs : List Byte} (h : writeBytes m a bs = .ok m')
    (hk : k < bs.length) : Memory.read m' (a + k) = bs[k] := by
  rw [read_writeBytes h, if_pos (Nat.le_add_right a k), Nat.add_sub_cancel_left, List.getD_eq_getElem _ _ hk]

/-- The register `V[k]` after `LD Vx, [I]` is the byte at `I + k` (R176). -/
theorem readV_loadRegs {x k : Reg} {s t : State} (h : exec (.loadRegs x) s = .next t) (hk : k ≤ x) :
    readV t k = Memory.read s.mem (s.i.toNat + k.val) := by
  obtain ⟨-, rfl⟩ := exec_loadRegs_inv h
  have hk : k.val < x.val + 1 := Nat.lt_succ_of_le hk
  rw [readV_setI, readV_writeVs _ _ _ _ (by rw [List.length_map, List.length_range]; omega), if_pos (Nat.zero_le _)]
  simp [hk]

/-- A frame may be widened: what changes nothing outside `es` changes nothing outside a larger list. -/
theorem ChangesOnly.mono {es es' : List Element} {s t : State} (h : ChangesOnly es s t) (hsub : es ⊆ es') :
    ChangesOnly es' s t := by
  have hout : ∀ {e}, e ∉ es' → e ∉ es := mt (@hsub _)
  exact ⟨fun x hx => h.v x (hout hx), fun he => h.pc (hout he), fun he => h.i (hout he),
    fun he => h.stack (hout he), fun he => h.dt (hout he), fun he => h.st (hout he), fun a ha => h.mem a (hout ha),
    fun he => h.fb (hout he), fun he => h.upd (hout he), fun he => h.keys (hout he),
    fun he => h.keysPrev (hout he), fun he => h.q (hout he), fun he => h.fault (hout he),
    fun he => h.draws (hout he)⟩

/-- A block load changes a register only up to `x`, so no element but `I` and the registers. -/
theorem footprint_loadRegs_subset (x : Reg) (s : State) :
    footprint (.loadRegs x) s ⊆ Element.i :: (List.finRange 16).map Element.v :=
  List.cons_subset_cons _ (List.map_subset _ (List.filter_subset_self _))

/-! ## The statements of 42_index_memory.md -/

/-- Settles O31: the meaning is one write of `I`, of a 12-bit number. -/
theorem loadIndexImmediate : Obligations.LoadIndexImmediate := by
  refine fun nnn s => ⟨_, rfl, addrOf_toNat nnn, ?_, changes_setI s _⟩
  rw [setI_i, addrOf_toNat]
  exact Nat.le_of_lt_succ nnn.isLt

/-- Settles O32, by the two settings of the quirk: `I` receives the sum in both, and the flag is a second write. -/
theorem addToIndexWrapsAndFlags : Obligations.AddToIndexWrapsAndFlags := by
  intro x s
  have h := exec_addI s x
  have hframe := exec_changes h
  have hsum := index_add_byte_toNat s.i (readV s x)
  cases hq : s.q.dontIndexOverflow
  · simp only [hq, footprint, Bool.false_eq_true, if_false] at h hframe
    exact ⟨_, h, hsum, fun hset => absurd hset (by decide), fun _ => hframe⟩
  · simp only [hq, footprint, if_true] at h hframe
    refine ⟨_, h, hsum, fun _ => ⟨?_, hframe⟩, fun hclear => absurd hclear (by decide)⟩
    rw [readV_writeV_self]
    exact flagByte_decide_toNat _

/-- Settles O33: the meaning is one write of `I`, of an address that does not wrap. -/
theorem fontPointsAtFiveByteGlyph : Obligations.FontPointsAtFiveByteGlyph :=
  fun x s => ⟨_, rfl, glyphAddr_toNat (readV s x), changes_setI s _⟩

/-- Settles O34: in bounds the instruction is a write of the three digits; past 4093 it is the fault. -/
theorem bcdStoresThreeDigits : Obligations.BcdStoresThreeDigits := by
  refine fun x s => ⟨fun hi => ?_, fun hi => ⟨_, _, exec_ldB_fault x hi⟩⟩
  obtain ⟨m, hm, h⟩ := exec_ldB_next x hi
  obtain ⟨hundreds, tens, ones⟩ := bcdDigits_toNat (readV s x)
  have hread : ∀ (k : Nat) (hk : k < 3), (Memory.read m (s.i.toNat + k)).toNat = (bcdDigits (readV s x))[k].toNat :=
    fun k hk => congrArg BitVec.toNat (read_writeBytes_inside hm hk)
  exact ⟨_, h, (hread 0 (by decide)).trans hundreds, (hread 1 (by decide)).trans tens,
    (hread 2 (by decide)).trans ones, exec_changes h⟩

/-- Settles O35: in bounds the bytes and the frame are those of the block store; past the end it is the fault. -/
theorem storeWritesRegistersUpward : Obligations.StoreWritesRegistersUpward := by
  refine fun x s => ⟨fun hi => ?_, fun hi => ⟨_, _, exec_storeRegs_fault hi⟩⟩
  obtain ⟨m, -, h⟩ := exec_storeRegs_next hi
  exact ⟨_, h, fun _ hk => read_storeRegs h hk, indexAfterBlock_toNat hi, exec_changes h⟩

/-- Settles O36: in bounds the registers up to `x` are the bytes and those above are outside the footprint; past the end
it is the fault. -/
theorem loadReadsRegistersUpward : Obligations.LoadReadsRegistersUpward := by
  refine fun x s => ⟨fun hi => ?_, fun hi => ⟨_, _, exec_loadRegs_fault hi⟩⟩
  have h := exec_loadRegs_next hi
  have habove : ∀ k : Reg, ¬ k ≤ x → Element.v k ∉ footprint (.loadRegs x) s := by simp [footprint]
  exact ⟨_, h, fun _ hk => readV_loadRegs h hk, fun k hk => (exec_changes h).v k (habove k hk),
    indexAfterBlock_toNat hi, (exec_changes h).mono (footprint_loadRegs_subset x s)⟩

/-- Settles O37: the store's check is the load's check, and the byte at `I + k` the load reads is the stored `V[k]`. -/
theorem storeThenLoadRestoresRegisters : Obligations.StoreThenLoadRestoresRegisters := by
  intro x s t r h hmem hi
  obtain ⟨hbound, -⟩ := exec_storeRegs_inv h
  have hload := exec_loadRegs_next (s := r) (x := x) (by rw [hi]; exact hbound)
  refine ⟨_, hload, fun k hk => ?_⟩
  rw [readV_loadRegs hload hk, hmem, hi, read_storeRegs h hk]

end Sys2Proof.Machine

namespace Sys2Proof.Machine

/-! ## The pixels a sprite covers, and what a draw does to them -/

/-- Some 1 bit of the sprite that `DRW Vx, Vy, n` draws from `s` lands on the pixel (R191, R192). -/
def SpriteCovers (s : State) (x y : Reg) (n : BitVec 4) (row : Fin Config.height) (col : Fin Config.width) : Prop :=
  ∃ r c, landsOn (readV s x) (readV s y) n.toNat r c row.val col.val ∧ spriteAt s s.i.toNat r c = true

/-- Coverage of a pixel with a property, with the sprite bit spelt out. -/
theorem exists_spriteCovers_and_iff (s : State) (x y : Reg) (n : BitVec 4)
    (p : Fin Config.height → Fin Config.width → Prop) :
    (∃ row col, SpriteCovers s x y n row col ∧ p row col) ↔
      ∃ (row : Fin Config.height) (col : Fin Config.width) (r c : Nat),
        landsOn (readV s x) (readV s y) n.toNat r c row.val col.val ∧ spriteAt s s.i.toNat r c = true ∧ p row col := by
  simp only [SpriteCovers, and_assoc, ← exists_and_right]

/-- Coverage depends on the coordinates, `I` and memory alone. -/
theorem spriteCovers_congr {s s' : State} {x y : Reg} (n : BitVec 4) (hx : readV s' x = readV s x)
    (hy : readV s' y = readV s y) (hi : s'.i = s.i) (hm : ∀ a, Memory.read s'.mem a = Memory.read s.mem a)
    (row : Fin Config.height) (col : Fin Config.width) :
    SpriteCovers s' x y n row col ↔ SpriteCovers s x y n row col := by
  simp only [SpriteCovers, spriteAt, hx, hy, hi, hm]

theorem spriteRow_eq_iff (vy : Byte) (r : Nat) (row : Fin Config.height) :
    spriteRow vy r = row ↔ row.val = (vy.toNat + r) % Config.height := by
  rw [Fin.ext_iff, eq_comm]
  rfl

theorem spriteCol_eq_iff (vx : Byte) (c : Nat) (col : Fin Config.width) :
    spriteCol vx c = col ↔ col.val = (vx.toNat + c) % Config.width := by
  rw [Fin.ext_iff, eq_comm]
  rfl

/-- The bits of the bytes a draw reads are the sprite's bits (R191). -/
theorem spriteBit_spriteBytes (s : State) {n : BitVec 4} {r : Nat} (c : Nat) (hr : r < n.toNat) :
    spriteBit ((spriteBytes s n).getD r 0#8) c = spriteAt s s.i.toNat r c := by
  rw [spriteBit, spriteAt, List.getD_eq_getElem _ _ (by simpa using hr)]
  simp

/-- The blitter of `DRW`, pixel by pixel and for the whole collision flag, in terms of coverage (R192 to R195). -/
theorem drawRows_spriteBytes (s : State) (x y : Reg) (n : BitVec 4) :
    (∀ row col, Framebuffer.pixel (drawRows (readV s x) (readV s y) 0 (spriteBytes s n) (s.fb, false)).1 row col ≠
      Framebuffer.pixel s.fb row col ↔ SpriteCovers s x y n row col) ∧
    ((drawRows (readV s x) (readV s y) 0 (spriteBytes s n) (s.fb, false)).2 = true ↔
      ∃ row col, SpriteCovers s x y n row col ∧ Framebuffer.pixel s.fb row col = true) := by
  have hlen : (spriteBytes s n).length = n.toNat := by simp
  obtain ⟨hpixel, hflag⟩ := drawRows_spec (readV s x) (readV s y) (spriteBytes s n) 0
    (by rw [hlen]; omega) (s.fb, false)
  simp only [hlen, Nat.zero_add] at hpixel hflag
  constructor
  · intro row col
    rw [hpixel]
    constructor
    · rintro ⟨r, c, hr, hc, hrow, hcol, hbit⟩
      exact ⟨r, c, ⟨hr, hc, (spriteRow_eq_iff _ _ _).1 hrow, (spriteCol_eq_iff _ _ _).1 hcol⟩,
        (spriteBit_spriteBytes s c hr).symm.trans hbit⟩
    · rintro ⟨r, c, ⟨hr, hc, hrow, hcol⟩, hbit⟩
      exact ⟨r, c, hr, hc, (spriteRow_eq_iff _ _ _).2 hrow, (spriteCol_eq_iff _ _ _).2 hcol,
        (spriteBit_spriteBytes s c hr).trans hbit⟩
  · rw [hflag]
    constructor
    · rintro (hfalse | ⟨r, c, hr, hc, hbit, hlit⟩)
      · cases hfalse
      · exact ⟨_, _, ⟨r, c, ⟨hr, hc, rfl, rfl⟩, (spriteBit_spriteBytes s c hr).symm.trans hbit⟩, hlit⟩
    · rintro ⟨row, col, ⟨r, c, ⟨hr, hc, hrow, hcol⟩, hbit⟩, hlit⟩
      obtain rfl := (spriteRow_eq_iff _ _ _).2 hrow
      obtain rfl := (spriteCol_eq_iff _ _ _).2 hcol
      exact .inr ⟨r, c, hr, hc, (spriteBit_spriteBytes s c hr).trans hbit, hlit⟩

theorem flagByte_eq_one_iff (c : Bool) : flagByte c = 1#8 ↔ c = true := by cases c <;> decide

section
variable {x y : Reg} {n : BitVec 4} {s t : State} (h : exec (.drw x y n) s = .next t)
include h

/-- A draw toggles exactly the pixels its sprite covers. -/
theorem exec_drw_pixel_ne_iff (row : Fin Config.height) (col : Fin Config.width) :
    Framebuffer.pixel t.fb row col ≠ Framebuffer.pixel s.fb row col ↔ SpriteCovers s x y n row col := by
  obtain ⟨-, rfl⟩ := exec_drw_inv h
  exact (drawRows_spriteBytes s x y n).1 row col

/-- A draw sets the flag to 1 exactly when its sprite covers a lit pixel (R193). -/
theorem exec_drw_flag_iff :
    readV t VF = 1#8 ↔ ∃ row col, SpriteCovers s x y n row col ∧ Framebuffer.pixel s.fb row col = true := by
  obtain ⟨-, rfl⟩ := exec_drw_inv h
  rw [readV_writeV_self, flagByte_eq_one_iff]
  exact (drawRows_spriteBytes s x y n).2

theorem exec_drw_flag_one_or_zero : readV t VF = 1#8 ∨ readV t VF = 0#8 := by
  obtain ⟨c, hc⟩ := exec_flag h trivial id
  rw [hc]
  exact (flagByte_zero_or_one c).symm

end

/-- A draw of no rows reads nothing and draws nothing, for every `I` (R192). -/
theorem exec_drw_no_rows (x y : Reg) (s : State) :
    exec (.drw x y 0#4) s = .next (writeFlag (s.setFb s.fb) false) := rfl

/-- XOR is an involution: a pixel that the second of two draws toggles exactly when the first did is back (R196). -/
theorem eq_of_toggled_alike {before between after : Bool} (h : after ≠ between ↔ between ≠ before) : after = before := by
  revert before between after
  decide

/-! ## The statements of 43_display.md -/

/-- Settles O41: in bounds the draw answers a next state, and each clause is a lemma about that state. -/
theorem drawTogglesExactlyTheSpritePixels : Obligations.DrawTogglesExactlyTheSpritePixels := by
  intro x y n s hn
  have h := exec_drw_next x y hn
  exact ⟨_, h, exec_drw_pixel_ne_iff h, exec_drw_flag_one_or_zero h,
    (exec_drw_flag_iff h).trans (exists_spriteCovers_and_iff s x y n _), rfl, exec_changes h⟩

/-- Settles O43: both draws cover the same pixels. Each of these is toggled twice, and the second draw meets it lit exactly
when it was off before the first. -/
theorem drawTwiceErases : Obligations.DrawTwiceErases := by
  intro x y n s t r h hfb hmem hi hx hy
  have hread : ∀ a, Memory.read r.mem a = Memory.read s.mem a := fun a => by
    rw [hmem]
    exact (exec_changes h).mem a (by simp [footprint])
  have hcovers := spriteCovers_congr n hx hy hi hread
  obtain ⟨hbound, -⟩ := exec_drw_inv h
  obtain ⟨u, hu⟩ : ∃ u, exec (.drw x y n) r = .next u := ⟨_, exec_drw_next x y (by rw [hi]; exact hbound)⟩
  have hfirst := exec_drw_pixel_ne_iff h
  simp only [← hfb] at hfirst
  refine ⟨u, hu, pixel_ext fun row col => ?_, ?_⟩
  · exact eq_of_toggled_alike
      ((exec_drw_pixel_ne_iff hu row col).trans ((hcovers row col).trans (hfirst row col).symm))
  · rw [exec_drw_flag_iff hu,
      ← exists_spriteCovers_and_iff s x y n fun row col => Framebuffer.pixel s.fb row col = false]
    refine exists_congr fun row => exists_congr fun col => ?_
    rw [hcovers]
    refine and_congr_right fun hc => ?_
    rw [Bool.eq_not_of_ne ((hfirst row col).2 hc), Bool.not_eq_true']

/-- Settles O40: the meaning is one write of the framebuffer, of the clear one. -/
theorem clearTurnsEveryPixelOff : Obligations.ClearTurnsEveryPixelOff :=
  fun _ => ⟨_, rfl, pixel_clear, rfl, exec_changes (i := .cls) rfl⟩

/-- Settles O42: past the end the draw of some rows is the fault; the draw of no rows is one state for every `I`. -/
theorem drawPastEndFaults : Obligations.DrawPastEndFaults := by
  refine fun x y n s => ⟨fun hrows hend => ⟨_, _, exec_drw_fault x y (by omega)⟩, fun hnone => ?_⟩
  obtain rfl : n = 0#4 := BitVec.eq_of_toNat_eq hnone
  exact ⟨_, exec_drw_no_rows x y s, rfl, readV_writeV_self _ VF _, rfl⟩

end Sys2Proof.Machine


namespace Sys2Proof.Machine

/-! ## The wait for a key, and the tone -/

/-- `PC - 2` as a number, `mod 65536` (R216). -/
theorem pc_sub_two_toNat (p : Word) : (p - 2#16).toNat = (p.toNat + 65536 - 2) % 65536 := by
  have hp := p.isLt
  rw [BitVec.toNat_sub, BitVec.toNat_ofNat]
  omega

/-- Going back by 2 undoes the advance of the fetch, for every `PC` (R25, R216). -/
theorem setPc_advance_setPc_back (s : State) :
    (s.setPc (s.pc + 2#16)).setPc ((s.setPc (s.pc + 2#16)).pc - 2#16) = s := by
  rw [setPc_pc, BitVec.add_sub_cancel]
  rfl

/-- The tone is on exactly when the sound timer is not 0 (R247). -/
theorem tone_eq_true_iff (s : State) : tone s = true ↔ s.st ≠ 0#8 := by
  rw [tone, decide_eq_true_iff, gt_iff_lt, Nat.pos_iff_ne_zero, BitVec.toNat_ne, BitVec.toNat_ofNat, Nat.zero_mod]

/-! ## The statements of 44_timer_input.md -/

/-- Settles O47, by whether a key is down. -/
theorem waitForKeyRewindsOrReadsLowest : Obligations.WaitForKeyRewindsOrReadsLowest := by
  refine fun x s => ⟨fun hnone => ?_, fun hsome => ?_⟩
  · exact ⟨_, exec_ldVxK_wait x hnone, pc_sub_two_toNat s.pc, changes_setPc s _⟩
  · obtain ⟨k, hdown, hlowest, hlt, h⟩ := exec_ldVxK_key x hsome
    have hread : (readV (writeV s x (BitVec.ofNat 8 k)) x).toNat = k := by
      rw [readV_writeV_self, BitVec.toNat_ofNat, Nat.mod_eq_of_lt (by omega)]
    exact ⟨_, h, by rwa [hread], by rwa [hread], changes_writeV s x _⟩

/-- Settles O48: the wait takes back the advance of the fetch, which is all the step had changed. -/
theorem waitingStepChangesNothing : Obligations.WaitingStepChangesNothing := by
  intro s x hfault hpc hdecode hkeys
  have hwait := exec_ldVxK_wait (s := s.setPc (s.pc + 2#16)) x hkeys
  rw [step_eq_exec hfault hpc hdecode, hwait, setPc_advance_setPc_back]

/-- Settles O45: up to 15 both are skips, under the state of the key now; above, both are the fault. -/
theorem keySkipsTestCurrentState : Obligations.KeySkipsTestCurrentState := by
  rintro x s k rfl
  refine ⟨fun hkey => ⟨?_, ?_⟩, fun hkey => ⟨?_, ?_⟩⟩
  · exact skip_spec (exec_skp_next hkey) Iff.rfl
  · exact skip_spec (exec_sknp_next hkey) (iff_of_eq (Bool.not_eq_true' _))
  · exact ⟨_, _, exec_skp_fault hkey⟩
  · exact ⟨_, _, exec_sknp_fault hkey⟩

/-- Settles O46: each is one write, of a register or of a timer; the tone reads the new sound timer. -/
theorem timerMovesAreDirectCopies : Obligations.TimerMovesAreDirectCopies := by
  refine fun x s => ⟨?_, ?_, ?_⟩
  · exact ⟨_, rfl, readV_writeV_self s x s.dt, changes_writeV s x _⟩
  · exact ⟨_, rfl, rfl, exec_changes (i := .ldDtVx x) rfl⟩
  · exact ⟨_, rfl, rfl, tone_eq_true_iff _, exec_changes (i := .ldStVx x) rfl⟩

end Sys2Proof.Machine

namespace Sys2Proof.Machine

/-! ## Which faults an instruction raises, and what a fault leaves -/

/-- `exec` answers one outcome, so a known fault is the fault. -/
theorem exec_fault_unique {i : Instr} {s : State} {f g : Fault} (hf : exec i s = .fault f) (hg : exec i s = .fault g) :
    f = g :=
  Host.Outcome.fault.inj (hf.symm.trans hg)

/-- A fault changes `FAULT` alone (R237). -/
theorem changes_latchFault (s : State) (f : Fault) : ChangesOnly [.fault] s (s.latchFault f) := by
  constructor <;> simp

/-- What a STEP leaves when the step faults (R236, R237). -/
theorem stepState_of_fault {s : State} {f : Fault} (h : step s = .fault f) : stepState s = s.latchFault f := by
  rw [stepState, h]

/-! ## The events of the environment -/

/-- One count down is the subtraction of natural numbers, which stops at 0 (R246). -/
theorem countDown_toNat (t : Byte) : (countDown t).toNat = t.toNat - 1 := by
  unfold countDown
  split
  · next h => rw [h]; rfl
  · next h =>
    have hpos : 1 ≤ t.toNat := Nat.one_le_iff_ne_zero.2 fun h0 => h (BitVec.eq_of_toNat_eq h0)
    exact BitVec.toNat_sub_of_le (BitVec.le_def.2 hpos)

theorem changes_timerTick (s : State) : ChangesOnly [.dt, .st] s (timerTick s) := by
  constructor <;> simp [timerTick, readV]

theorem changes_inputSample (m : Word) (s : State) : ChangesOnly [.keys, .keysPrev] s (inputSample m s) := by
  constructor <;> simp [inputSample, readV]

theorem changes_presentAck (s : State) : ChangesOnly [.upd] s (presentAck s) := by
  constructor <;> simp [presentAck, readV]

/-- The release query over the two key masks (R36). -/
theorem wasReleased_eq_true_iff (s : State) (k : Nat) :
    wasReleased s k = true ↔ s.keysPrev.getLsbD k = true ∧ s.keys.getLsbD k = false := by
  simp [wasReleased, isDown]

/-! ## The statements of 60_exceptions.md -/

/-- Settles O9: the two halves are the lemmas about a check that passes and one that fails. -/
theorem instructionFaultsExactlyWhenItsCheckFails : Obligations.InstructionFaultsExactlyWhenItsCheckFails :=
  fun _ _ => ⟨exec_next_of_check, exec_fault_of_check⟩

/-- Settles O10: a fault means that the instruction's own check failed, and each instruction with a check raises the one
fault of its lemma. -/
theorem faultRecordsAreComplete : Obligations.FaultRecordsAreComplete := by
  intro i s f h
  have hc := ownCheckFails_of_exec_fault h
  cases i
  case ret => exact .inl ⟨rfl, exec_fault_unique h (exec_ret_fault hc)⟩
  case skp x => exact .inr (.inl ⟨x, .inl rfl, exec_fault_unique h (exec_skp_fault hc)⟩)
  case sknp x => exact .inr (.inl ⟨x, .inr rfl, exec_fault_unique h (exec_sknp_fault hc)⟩)
  case ldB x => exact .inr (.inr (.inl ⟨.inl ⟨x, rfl⟩, exec_fault_unique h (exec_ldB_fault x hc)⟩))
  case storeRegs x => exact .inr (.inr (.inl ⟨.inr ⟨x, rfl⟩, exec_fault_unique h (exec_storeRegs_fault hc)⟩))
  case drw x y n =>
    obtain ⟨hn, hi⟩ := hc
    exact .inr (.inr (.inr ⟨.inl ⟨x, y, n, rfl⟩, exec_fault_unique h (exec_drw_fault x y (by omega))⟩))
  case loadRegs x => exact .inr (.inr (.inr ⟨.inr ⟨x, rfl⟩, exec_fault_unique h (exec_loadRegs_fault hc)⟩))
  all_goals exact hc.elim

/-- No instruction raises the fault of the decode stage (R231, R235): it is none of the records of O10. -/
theorem exec_ne_unimplementedOpcode (i : Instr) (s : State) (w a : Word) :
    exec i s ≠ .fault (.unimplementedOpcode w a) := by
  intro h
  rcases faultRecordsAreComplete i s _ h with ⟨-, hf⟩ | ⟨x, -, hf⟩ | ⟨-, hf⟩ | ⟨-, hf⟩ <;> cases hf

/-- Settles O8: of the ways a step can go, only a fetched word that does not decode ends in this fault. -/
theorem unimplementedOpcodeExactly : Obligations.UnimplementedOpcodeExactly := by
  intro s w a hf
  constructor
  · intro h
    rcases step_cases s with ⟨f, hf', -⟩ | ⟨-, -, e⟩ | ⟨-, hp, ⟨err, hd⟩, e⟩ | ⟨-, -, i, -, e⟩
    · rw [hf] at hf'; cases hf'
    · rw [e] at h; cases h
    · rw [e] at h; cases h
      exact ⟨hp, rfl, illegal_of_decodeWord_error hd, rfl⟩
    · exact absurd (e ▸ h) (exec_ne_unimplementedOpcode i _ w a)
  · rintro ⟨hp, rfl, hw, rfl⟩
    exact step_illegal hf hp (decodeWord_of_illegal hw)

/-- Settles O11: the state after the STEP is the one before it with the record latched. -/
theorem faultingStepFreezesState : Obligations.FaultingStepFreezesState :=
  fun s f h => ⟨s.latchFault f, congrArg some (stepState_of_fault h), latchFault_fault s f, changes_latchFault s f⟩

/-- Settles O49: both timers by one count down. -/
theorem timerTickCountsDownBoth : Obligations.TimerTickCountsDownBoth :=
  fun s => ⟨timerTick s, rfl, countDown_toNat s.dt, countDown_toNat s.st, changes_timerTick s⟩

/-- Settles O50: the release query reads the two masks the event has just written. -/
theorem inputSampleKeepsPrevious : Obligations.InputSampleKeepsPrevious :=
  fun m s => ⟨inputSample m s, rfl, rfl, rfl, wasReleased_eq_true_iff (inputSample m s), changes_inputSample m s⟩

/-- Settles O51: the frame is guarded by `UPD`, and the acknowledge is one write of it. -/
theorem presentAckClearsUpdatePending : Obligations.PresentAckClearsUpdatePending :=
  fun s => ⟨rfl, presentAck s, rfl, rfl, changes_presentAck s⟩

end Sys2Proof.Machine

namespace Sys2Proof.Machine

/-! ## The parked core -/

/-- An address of memory is the 12-bit field `JP` keeps of it, zero-extended again (R91, R93). -/
theorem addrOf_nnnField {a : Word} (ha : a.toNat ≤ 0xFFF) : addrOf (nnnField a) = a := by
  apply BitVec.eq_of_toNat_eq
  rw [addrOf_toNat, nnnField_toNat, Nat.mod_eq_of_lt (by omega)]

/-- The word of a parked core is `JP` to its own address (R94, R275). -/
theorem encode_jp_nnnField {a : Word} (ha : a.toNat ≤ 0xFFF) : encode (.jp (nnnField a)) = 0x1000#16 ||| a :=
  congrArg (0x1000#16 ||| ·) (addrOf_nnnField ha)

/-! ## The statement of 70_reset_and_hazards.md -/

/-- Settles O56: the fetched word decodes as `JP` to the `PC` before the step, and that one write of `PC` takes back the
advance of the fetch, which is all the step had changed. -/
theorem parkedStepChangesNothing : Obligations.ParkedStepChangesNothing := by
  rintro s ⟨hfault, hpc, hword⟩
  have haddr : s.pc.toNat ≤ 0xFFF := by omega
  have hdecode : decodeWord (fetchWord s.mem s.pc.toNat) = .ok (.jp (nnnField s.pc)) := by
    rw [hword, ← encode_jp_nnnField haddr, decodeWord_encode rfl]
  calc step s = exec (.jp (nnnField s.pc)) (s.setPc (s.pc + 2#16)) := step_eq_exec hfault hpc hdecode
    _ = .next (s.setPc (addrOf (nnnField s.pc))) := rfl
    _ = .next s := by rw [addrOf_nnnField haddr]; rfl

end Sys2Proof.Machine
